-- ==== Sys2Proof/Word.lean ====
section
/-! DEFINITION. The word types of the machine: registers, bytes, instruction words and register numbers. -/

namespace Sys2Proof

/-- A 64-bit pattern: a general register, the pc, an address, a counter (00_scope.md R5: XLEN = 64, ADDR_BITS = 64,
CTR_WIDTH = 64).  "Unsigned" and "signed" are readings of it (`toNat`, `toInt`), never another storage (R6). -/
abbrev Word := BitVec 64

/-- One byte of memory: 8 bits (10_state.md R31). -/
abbrev Byte := BitVec 8

/-- The raw 32-bit instruction word `iw` (00_scope.md R5: ILEN = 32; 30_encoding.md R70). -/
abbrev InstrWord := BitVec 32

/-- The number of a general register, `x0` to `x31` (10_state.md R20). -/
abbrev Reg := Fin 32

end Sys2Proof
end

