-- ==== Sys2Proof/Machine/Flags.lean ====
section
/-! DEFINITION. The hardware has no status flags (10_state.md R27): branches compare two registers directly.  These are
the four conditions of 46_branch.md, on the signed 64-bit readings of the registers. -/

namespace Sys2Proof.Machine

/-- BEQ: `a = b` (R171). -/
def condEq (a b : Word) : Bool := decide (a.toInt = b.toInt)

/-- BNE: `a != b` (R172). -/
def condNe (a b : Word) : Bool := decide (a.toInt ≠ b.toInt)

/-- BLT: `a < b`, signed (R173). -/
def condLt (a b : Word) : Bool := decide (a.toInt < b.toInt)

/-- BGE: `a >= b`, signed (R174). -/
def condGe (a b : Word) : Bool := decide (b.toInt ≤ a.toInt)

end Sys2Proof.Machine
end

