-- ==== Sys2Proof/Syntax.lean ====
section
/-! DEFINITION. The instruction set as syntax: the 22 instructions (00_scope.md R2), and the report of a word that is
none of them (60_exceptions.md R202). -/

namespace Sys2Proof

/-- The 22 instructions of 00_scope.md R2, one constructor per row of the opcode table, each with the operands the
spec's rule reads.  A displacement or immediate is the signed number the decoder rebuilds (30_encoding.md R80 to R83);
`shamt` is the five-bit literal count of SRLI (R84).  Stores and branches name `rs1` first, then `rs2`. -/
inductive Instr where
  | add (rd rs1 rs2 : Reg)
  | mul (rd rs1 rs2 : Reg)
  | sub (rd rs1 rs2 : Reg)
  | sll (rd rs1 rs2 : Reg)
  | srl (rd rs1 rs2 : Reg)
  | and (rd rs1 rs2 : Reg)
  /-- "Field: `rs1` only" (42_jalr.md R140): `rd`, `funct3` and the immediate bits are ignored, so they are no operands. -/
  | jalr (rs1 : Reg)
  | jal (rd : Reg) (imm : Int)
  | addi (rd rs1 : Reg) (imm : Int)
  | srli (rd rs1 : Reg) (shamt : BitVec 5)
  | sllw (rd rs1 rs2 : Reg)
  | sraw (rd rs1 rs2 : Reg)
  | beq (rs1 rs2 : Reg) (imm : Int)
  | bne (rs1 rs2 : Reg) (imm : Int)
  | blt (rs1 rs2 : Reg) (imm : Int)
  | bge (rs1 rs2 : Reg) (imm : Int)
  | sb (rs1 rs2 : Reg) (imm : Int)
  | sw (rs1 rs2 : Reg) (imm : Int)
  | sd (rs1 rs2 : Reg) (imm : Int)
  | lb (rd rs1 : Reg) (imm : Int)
  | lw (rd rs1 : Reg) (imm : Int)
  | ld (rd rs1 : Reg) (imm : Int)
  deriving DecidableEq, Repr

/-- The categories of the unsupported-operation report (60_exceptions.md R202), one per handler that can raise it. -/
inductive Category where
  | opcode | rType | iArith | wType | load | branch | store
  deriving DecidableEq, Repr

/-- "The offending numeric field" (R202): the opcode, `funct3`, or the pair where a handler tests both. -/
inductive OffendingField where
  | opcode (op : BitVec 7)
  | funct3 (f3 : BitVec 3)
  | funct3and7 (f3 : BitVec 3) (f7 : BitVec 7)
  deriving DecidableEq, Repr

/-- Unsupported(category, field): what decoding answers for a word outside the set (30_encoding.md R91). -/
structure Unsupported where
  category : Category
  field : OffendingField
  deriving DecidableEq, Repr

/-- Why a list of bytes is no instruction: fewer than the four bytes of a word, or an unsupported word. -/
inductive DecodeError where
  | truncated
  | unsupported (u : Unsupported)
  deriving DecidableEq, Repr

/-- A row of the opcode map: a word `iw` is the row's instruction when `iw &&& mask = value` (30_encoding.md R92). -/
structure OpcodeRow where
  mnemonic : String
  value : InstrWord
  mask : InstrWord
  deriving DecidableEq, Repr

end Sys2Proof
end

