-- ==== Sys2Proof/Decode.lean ====
section
/-! DEFINITION. The bit primitives (00_scope.md R7 to R9), the instruction fields and immediates (30_encoding.md R71 to
R84), the decoder, total on every word and every list of bytes and rejecting by name (R91 to R99), and the encoder
(R85).  Byte order of an instruction word: 20_memory.md R51. -/

namespace Sys2Proof

/-! ### Bit primitives -/

/-- `extract_bits` (00_scope.md R7): the `count`-bit unsigned field of `value` that begins at bit `start`.  Its stated
domain is the hypothesis, so a call outside it cannot be written (93_implementation_defined.md U1; log entry 18). -/
def extractBits (value : Word) (start count : Nat) (_inside : start + count ≤ 64 := by decide) : BitVec count :=
  value.extractLsb' start count

/-- `get_bit` (00_scope.md R9): bit `index` of `value` is set. -/
def getBit (value : Word) (index : Fin 64) : Bool := value.getLsbD index.val

/-- `sign_extend` (00_scope.md R8): bits `start .. 0` of `value`, read as a signed number whose sign bit is bit `start`;
the bits above are discarded.  The signed 64-bit result is the integer; its pattern is `BitVec.ofInt 64` of it. -/
def signExtend (value : Word) (start : Fin 64) : Int :=
  let low : Int := (extractBits value 0 (start.val + 1) (by omega)).toNat
  if getBit value start then low - 2 ^ (start.val + 1) else low

/-! ### Fields and immediates of an instruction word -/

/-- A field of the instruction word; the word is zero-extended to 64 bits first (00_scope.md R7). -/
def field (iw : InstrWord) (start count : Nat) (inside : start + count ≤ 64 := by decide) : BitVec count :=
  extractBits (iw.setWidth 64) start count inside

/-- `opcode`, bits 6:0 (30_encoding.md R71, R90). -/
def opcodeOf (iw : InstrWord) : BitVec 7 := field iw 0 7

/-- `rd`, bits 11:7 (R71). -/
def rdOf (iw : InstrWord) : Reg := (field iw 7 5).toFin

/-- `funct3`, bits 14:12 (R71). -/
def funct3Of (iw : InstrWord) : BitVec 3 := field iw 12 3

/-- `rs1`, bits 19:15 (R71). -/
def rs1Of (iw : InstrWord) : Reg := (field iw 15 5).toFin

/-- `rs2`, bits 24:20 (R71). -/
def rs2Of (iw : InstrWord) : Reg := (field iw 20 5).toFin

/-- `funct7`, bits 31:25 (R71). -/
def funct7Of (iw : InstrWord) : BitVec 7 := field iw 25 7

/-- The shift amount of SRLI: bits 24:20, a literal count 0..31 (30_encoding.md R84). -/
def shamtOf (iw : InstrWord) : BitVec 5 := field iw 20 5

/-- A field placed at bit `at_` of a 64-bit pattern under assembly. -/
def placeAt {n : Nat} (bits : BitVec n) (at_ : Nat) : Word := bits.setWidth 64 <<< at_

/-- `imm_I` (30_encoding.md R80). -/
def immI (iw : InstrWord) : Int := signExtend (placeAt (field iw 20 12) 0) 11

/-- `imm_S` (30_encoding.md R81): bits 11..5 from 31:25, bits 4..0 from 11:7. -/
def immS (iw : InstrWord) : Int := signExtend (placeAt (field iw 25 7) 5 ||| placeAt (field iw 7 5) 0) 11

/-- `imm_B` (30_encoding.md R75, R82): bit 12 = iw[31], bit 11 = iw[7], bits 10..5 = iw[30:25], bits 4..1 = iw[11:8]. -/
def immB (iw : InstrWord) : Int :=
  signExtend (placeAt (field iw 31 1) 12 ||| placeAt (field iw 7 1) 11 ||| placeAt (field iw 25 6) 5 |||
    placeAt (field iw 8 4) 1) 12

/-- `imm_J` (30_encoding.md R76, R83): bit 20 = iw[31], bits 19..12 = iw[19:12], bit 11 = iw[20], bits 10..1 =
iw[30:21]. -/
def immJ (iw : InstrWord) : Int :=
  signExtend (placeAt (field iw 31 1) 20 ||| placeAt (field iw 12 8) 12 ||| placeAt (field iw 20 1) 11 |||
    placeAt (field iw 21 10) 1) 20

/-! ### The opcode values (30_encoding.md R90; PRESUMED by the spec itself, D1; log entry 3) -/

def opOp : BitVec 7 := 0b0110011#7
def opJalr : BitVec 7 := 0b1100111#7
def opOpImm : BitVec 7 := 0b0010011#7
def opOp32 : BitVec 7 := 0b0111011#7
def opLoad : BitVec 7 := 0b0000011#7
def opBranch : BitVec 7 := 0b1100011#7
def opStore : BitVec 7 := 0b0100011#7
def opJal : BitVec 7 := 0b1101111#7

/-! ### The decoder -/

/-- The numeric code of a category (60_exceptions.md R202; the spec's own labels, D14; log entry 12). -/
def Category.code : Category → Nat
  | .opcode => 1
  | .rType => 2
  | .iArith => 3
  | .wType => 4
  | .load => 5
  | .branch => 6
  | .store => 7

/-- A handler's answer. -/
abbrev Decoded := Except Unsupported Instr

/-- The report of a handler that tests `funct3` and `funct7`: both are kept (60_exceptions.md R202; log entry 12). -/
def unsupportedPair (c : Category) (iw : InstrWord) : Decoded :=
  .error ⟨c, .funct3and7 (funct3Of iw) (funct7Of iw)⟩

/-- The report of a handler that tests `funct3` alone (R202). -/
def unsupportedFunct3 (c : Category) (iw : InstrWord) : Decoded := .error ⟨c, .funct3 (funct3Of iw)⟩

/-- The R-type handler's decode: opcode OP, both `funct3` and `funct7` must match (30_encoding.md R92, 41_r_type.md
R130). -/
def decodeR (iw : InstrWord) : Decoded :=
  if funct3Of iw = 0b000#3 ∧ funct7Of iw = 0b0000000#7 then .ok (.add (rdOf iw) (rs1Of iw) (rs2Of iw))
  else if funct3Of iw = 0b000#3 ∧ funct7Of iw = 0b0000001#7 then .ok (.mul (rdOf iw) (rs1Of iw) (rs2Of iw))
  else if funct3Of iw = 0b000#3 ∧ funct7Of iw = 0b0100000#7 then .ok (.sub (rdOf iw) (rs1Of iw) (rs2Of iw))
  else if funct3Of iw = 0b001#3 ∧ funct7Of iw = 0b0000000#7 then .ok (.sll (rdOf iw) (rs1Of iw) (rs2Of iw))
  else if funct3Of iw = 0b101#3 ∧ funct7Of iw = 0b0000000#7 then .ok (.srl (rdOf iw) (rs1Of iw) (rs2Of iw))
  else if funct3Of iw = 0b111#3 ∧ funct7Of iw = 0b0000000#7 then .ok (.and (rdOf iw) (rs1Of iw) (rs2Of iw))
  else unsupportedPair .rType iw

/-- The immediate-arithmetic handler's decode (R93, 44_i_arith.md R150): `funct7` is tested only for SRLI. -/
def decodeIArith (iw : InstrWord) : Decoded :=
  if funct3Of iw = 0b000#3 then .ok (.addi (rdOf iw) (rs1Of iw) (immI iw))
  else if funct3Of iw = 0b101#3 ∧ funct7Of iw = 0b0000000#7 then .ok (.srli (rdOf iw) (rs1Of iw) (shamtOf iw))
  else unsupportedPair .iArith iw

/-- The W-variant handler's decode (R94, 45_w_variant.md R160). -/
def decodeW (iw : InstrWord) : Decoded :=
  if funct3Of iw = 0b001#3 ∧ funct7Of iw = 0b0000000#7 then .ok (.sllw (rdOf iw) (rs1Of iw) (rs2Of iw))
  else if funct3Of iw = 0b101#3 ∧ funct7Of iw = 0b0100000#7 then .ok (.sraw (rdOf iw) (rs1Of iw) (rs2Of iw))
  else unsupportedPair .wType iw

/-- The load handler's decode (R96, 48_load.md R193). -/
def decodeLoad (iw : InstrWord) : Decoded :=
  if funct3Of iw = 0b000#3 then .ok (.lb (rdOf iw) (rs1Of iw) (immI iw))
  else if funct3Of iw = 0b010#3 then .ok (.lw (rdOf iw) (rs1Of iw) (immI iw))
  else if funct3Of iw = 0b011#3 then .ok (.ld (rdOf iw) (rs1Of iw) (immI iw))
  else unsupportedFunct3 .load iw

/-- The branch handler's decode (R95, 46_branch.md R170). -/
def decodeBranch (iw : InstrWord) : Decoded :=
  if funct3Of iw = 0b000#3 then .ok (.beq (rs1Of iw) (rs2Of iw) (immB iw))
  else if funct3Of iw = 0b001#3 then .ok (.bne (rs1Of iw) (rs2Of iw) (immB iw))
  else if funct3Of iw = 0b100#3 then .ok (.blt (rs1Of iw) (rs2Of iw) (immB iw))
  else if funct3Of iw = 0b101#3 then .ok (.bge (rs1Of iw) (rs2Of iw) (immB iw))
  else unsupportedFunct3 .branch iw

/-- The store handler's decode (R97, 47_store.md R180). -/
def decodeStore (iw : InstrWord) : Decoded :=
  if funct3Of iw = 0b000#3 then .ok (.sb (rs1Of iw) (rs2Of iw) (immS iw))
  else if funct3Of iw = 0b010#3 then .ok (.sw (rs1Of iw) (rs2Of iw) (immS iw))
  else if funct3Of iw = 0b011#3 then .ok (.sd (rs1Of iw) (rs2Of iw) (immS iw))
  else unsupportedFunct3 .store iw

/-- Decoding a word: total, first the opcode, then the handler's own test (30_encoding.md R90, R91; the dispatch of
40_step_and_dispatch.md R111).  Every word with opcode JAL or JALR is accepted (R98). -/
def decodeWord (iw : InstrWord) : Decoded :=
  if opcodeOf iw = opOp then decodeR iw
  else if opcodeOf iw = opJalr then .ok (.jalr (rs1Of iw))
  else if opcodeOf iw = opOpImm then decodeIArith iw
  else if opcodeOf iw = opOp32 then decodeW iw
  else if opcodeOf iw = opLoad then decodeLoad iw
  else if opcodeOf iw = opBranch then decodeBranch iw
  else if opcodeOf iw = opStore then decodeStore iw
  else if opcodeOf iw = opJal then .ok (.jal (rdOf iw) (immJ iw))
  else .error ⟨.opcode, .opcode (opcodeOf iw)⟩

/-! ### Bytes -/

/-- The number a list of bytes holds, least significant byte first (20_memory.md R50, R52). -/
def leValue : List Byte → Nat
  | [] => 0
  | b :: rest => b.toNat + 256 * leValue rest

/-- The low `n` bytes of a number, least significant byte first (20_memory.md R50, R53). -/
def leBytes : Nat → Nat → List Byte
  | 0, _ => []
  | n + 1, v => BitVec.ofNat 8 v :: leBytes n (v / 256)

/-- The instruction word four bytes hold, the first byte in bits 7..0 (20_memory.md R51). -/
def wordOfBytes (bytes : List Byte) : InstrWord := BitVec.ofNat 32 (leValue bytes)

/-- Decoding a list of bytes: one instruction and the rest, or a rejection by name. -/
def decode : List Byte → Except DecodeError (Instr × List Byte)
  | b0 :: b1 :: b2 :: b3 :: rest =>
    match decodeWord (wordOfBytes [b0, b1, b2, b3]) with
    | .ok i => .ok (i, rest)
    | .error u => .error (.unsupported u)
  | _ => .error .truncated

/-! ### The encoder -/

/-- A register number as the five bits of its field (10_state.md R20). -/
def regBits (r : Reg) : BitVec 5 := BitVec.ofFin r

/-- A field put into an instruction word, its lowest bit at bit `lo`. -/
def put {n : Nat} (bits : BitVec n) (lo : Nat) : InstrWord := bits.setWidth 32 <<< lo

/-- R format (30_encoding.md R72). -/
def encodeR (f7 : BitVec 7) (rs2 rs1 : BitVec 5) (f3 : BitVec 3) (rd : BitVec 5) (op : BitVec 7) : InstrWord :=
  put f7 25 ||| put rs2 20 ||| put rs1 15 ||| put f3 12 ||| put rd 7 ||| put op 0

/-- I format with the 12-bit immediate (R73, R85). -/
def encodeI (imm : BitVec 12) (rs1 : BitVec 5) (f3 : BitVec 3) (rd : BitVec 5) (op : BitVec 7) : InstrWord :=
  put imm 20 ||| put rs1 15 ||| put f3 12 ||| put rd 7 ||| put op 0

/-- S format (R74, R85): `u[11:5]` at 31:25, `u[4:0]` at 11:7. -/
def encodeS (u : BitVec 12) (rs2 rs1 : BitVec 5) (f3 : BitVec 3) (op : BitVec 7) : InstrWord :=
  put (u.extractLsb' 5 7) 25 ||| put rs2 20 ||| put rs1 15 ||| put f3 12 ||| put (u.extractLsb' 0 5) 7 ||| put op 0

/-- B format (R75, R85): `u[12]` at 31, `u[10:5]` at 30:25, `u[4:1]` at 11:8, `u[11]` at 7. -/
def encodeB (u : BitVec 13) (rs2 rs1 : BitVec 5) (f3 : BitVec 3) (op : BitVec 7) : InstrWord :=
  put (u.extractLsb' 12 1) 31 ||| put (u.extractLsb' 5 6) 25 ||| put rs2 20 ||| put rs1 15 ||| put f3 12 |||
    put (u.extractLsb' 1 4) 8 ||| put (u.extractLsb' 11 1) 7 ||| put op 0

/-- J format (R76, R85): `u[20]` at 31, `u[10:1]` at 30:21, `u[11]` at 20, `u[19:12]` at 19:12. -/
def encodeJ (u : BitVec 21) (rd : BitVec 5) (op : BitVec 7) : InstrWord :=
  put (u.extractLsb' 20 1) 31 ||| put (u.extractLsb' 1 10) 21 ||| put (u.extractLsb' 11 1) 20 |||
    put (u.extractLsb' 12 8) 12 ||| put rd 7 ||| put op 0

/-- The word of an instruction (30_encoding.md R72 to R76, R85, R92 to R98).  JALR gets zeros in the bits the decoder
ignores, which is the word `jalr x0, 0(rs1)` of R103. -/
def encode : Instr → InstrWord
  | .add rd rs1 rs2 => encodeR 0b0000000#7 (regBits rs2) (regBits rs1) 0b000#3 (regBits rd) opOp
  | .mul rd rs1 rs2 => encodeR 0b0000001#7 (regBits rs2) (regBits rs1) 0b000#3 (regBits rd) opOp
  | .sub rd rs1 rs2 => encodeR 0b0100000#7 (regBits rs2) (regBits rs1) 0b000#3 (regBits rd) opOp
  | .sll rd rs1 rs2 => encodeR 0b0000000#7 (regBits rs2) (regBits rs1) 0b001#3 (regBits rd) opOp
  | .srl rd rs1 rs2 => encodeR 0b0000000#7 (regBits rs2) (regBits rs1) 0b101#3 (regBits rd) opOp
  | .and rd rs1 rs2 => encodeR 0b0000000#7 (regBits rs2) (regBits rs1) 0b111#3 (regBits rd) opOp
  | .jalr rs1 => encodeI 0#12 (regBits rs1) 0b000#3 0#5 opJalr
  | .jal rd imm => encodeJ (BitVec.ofInt 21 imm) (regBits rd) opJal
  | .addi rd rs1 imm => encodeI (BitVec.ofInt 12 imm) (regBits rs1) 0b000#3 (regBits rd) opOpImm
  | .srli rd rs1 shamt => encodeR 0b0000000#7 shamt (regBits rs1) 0b101#3 (regBits rd) opOpImm
  | .sllw rd rs1 rs2 => encodeR 0b0000000#7 (regBits rs2) (regBits rs1) 0b001#3 (regBits rd) opOp32
  | .sraw rd rs1 rs2 => encodeR 0b0100000#7 (regBits rs2) (regBits rs1) 0b101#3 (regBits rd) opOp32
  | .beq rs1 rs2 imm => encodeB (BitVec.ofInt 13 imm) (regBits rs2) (regBits rs1) 0b000#3 opBranch
  | .bne rs1 rs2 imm => encodeB (BitVec.ofInt 13 imm) (regBits rs2) (regBits rs1) 0b001#3 opBranch
  | .blt rs1 rs2 imm => encodeB (BitVec.ofInt 13 imm) (regBits rs2) (regBits rs1) 0b100#3 opBranch
  | .bge rs1 rs2 imm => encodeB (BitVec.ofInt 13 imm) (regBits rs2) (regBits rs1) 0b101#3 opBranch
  | .sb rs1 rs2 imm => encodeS (BitVec.ofInt 12 imm) (regBits rs2) (regBits rs1) 0b000#3 opStore
  | .sw rs1 rs2 imm => encodeS (BitVec.ofInt 12 imm) (regBits rs2) (regBits rs1) 0b010#3 opStore
  | .sd rs1 rs2 imm => encodeS (BitVec.ofInt 12 imm) (regBits rs2) (regBits rs1) 0b011#3 opStore
  | .lb rd rs1 imm => encodeI (BitVec.ofInt 12 imm) (regBits rs1) 0b000#3 (regBits rd) opLoad
  | .lw rd rs1 imm => encodeI (BitVec.ofInt 12 imm) (regBits rs1) 0b010#3 (regBits rd) opLoad
  | .ld rd rs1 imm => encodeI (BitVec.ofInt 12 imm) (regBits rs1) 0b011#3 (regBits rd) opLoad

/-! ### The opcode map as rows (30_encoding.md R92 to R98; spec/opcode_table.json) -/

/-- The row of the opcode map an instruction belongs to. -/
def Instr.row : Instr → OpcodeRow
  | .add _ _ _ => ⟨"ADD", 0x00000033#32, 0xFE00707F#32⟩
  | .mul _ _ _ => ⟨"MUL", 0x02000033#32, 0xFE00707F#32⟩
  | .sub _ _ _ => ⟨"SUB", 0x40000033#32, 0xFE00707F#32⟩
  | .sll _ _ _ => ⟨"SLL", 0x00001033#32, 0xFE00707F#32⟩
  | .srl _ _ _ => ⟨"SRL", 0x00005033#32, 0xFE00707F#32⟩
  | .and _ _ _ => ⟨"AND", 0x00007033#32, 0xFE00707F#32⟩
  | .jalr _ => ⟨"JALR", 0x00000067#32, 0x0000007F#32⟩
  | .jal _ _ => ⟨"JAL", 0x0000006F#32, 0x0000007F#32⟩
  | .addi _ _ _ => ⟨"ADDI", 0x00000013#32, 0x0000707F#32⟩
  | .srli _ _ _ => ⟨"SRLI", 0x00005013#32, 0xFE00707F#32⟩
  | .sllw _ _ _ => ⟨"SLLW", 0x0000103B#32, 0xFE00707F#32⟩
  | .sraw _ _ _ => ⟨"SRAW", 0x4000503B#32, 0xFE00707F#32⟩
  | .beq _ _ _ => ⟨"BEQ", 0x00000063#32, 0x0000707F#32⟩
  | .bne _ _ _ => ⟨"BNE", 0x00001063#32, 0x0000707F#32⟩
  | .blt _ _ _ => ⟨"BLT", 0x00004063#32, 0x0000707F#32⟩
  | .bge _ _ _ => ⟨"BGE", 0x00005063#32, 0x0000707F#32⟩
  | .sb _ _ _ => ⟨"SB", 0x00000023#32, 0x0000707F#32⟩
  | .sw _ _ _ => ⟨"SW", 0x00002023#32, 0x0000707F#32⟩
  | .sd _ _ _ => ⟨"SD", 0x00003023#32, 0x0000707F#32⟩
  | .lb _ _ _ => ⟨"LB", 0x00000003#32, 0x0000707F#32⟩
  | .lw _ _ _ => ⟨"LW", 0x00002003#32, 0x0000707F#32⟩
  | .ld _ _ _ => ⟨"LD", 0x00003003#32, 0x0000707F#32⟩

/-- The 22 rows, taken from one instance of each instruction. -/
def opcodeTable : List OpcodeRow :=
  [Instr.add 0 0 0, .mul 0 0 0, .sub 0 0 0, .sll 0 0 0, .srl 0 0 0, .and 0 0 0, .jalr 0, .jal 0 0, .addi 0 0 0,
    .srli 0 0 0, .sllw 0 0 0, .sraw 0 0 0].map Instr.row ++
  [Instr.beq 0 0 0, .bne 0 0 0, .blt 0 0 0, .bge 0 0 0, .sb 0 0 0, .sw 0 0 0, .sd 0 0 0, .lb 0 0 0, .lw 0 0 0,
    .ld 0 0 0].map Instr.row

/-! ### The host's reading of a table word -/

/-- The four bytes of the instruction whose table bits are `w`, as the hardware stores them: bits at and above `nbits`
are 0, the least significant byte first (20_memory.md R51). -/
def tableBytes (nbits w : Nat) : List Byte := leBytes 4 (w % 2 ^ nbits)

/-- The instruction the decoder reads from the word the opcode table numbers `w`. -/
def decodeTableWord (nbits w : Nat) : Option Instr :=
  match decode (tableBytes nbits w) with
  | .ok (i, _) => some i
  | .error _ => none

end Sys2Proof
end

