-- ==== Sys2Proof/Config.lean ====
section
/-! DEFINITION. The open parameters of the hardware (00_scope.md R5, 92_eei_decisions.md): what the environment fixes,
as plain data.  A running block consults `Platform`; `ResetInputs` adds what reset alone consumes.  Nothing here is a
property of the hardware: every parameter is carried by `State`, so a statement over all states holds for every value. -/

namespace Sys2Proof

/-- One range of DataRegions together with its part of MemInit (00_scope.md R5, 10_state.md R31, D19): the bytes that
stand at `base`, `base + 1`, … at reset.  The range is as long as the list. -/
structure DataRegion where
  base : Word
  bytes : List Byte
  deriving DecidableEq, Repr

/-- The parameters that stay fixed for a run and that steps consult (00_scope.md R5): STOP_PC (D4), STACK_BASE and
STACK_SIZE (D5), DataRegions with MemInit (D19). -/
structure Platform where
  stopPc : Word
  stackBase : Word
  stackSize : Nat
  dataRegions : List DataRegion
  deriving DecidableEq, Repr

/-- Everything reset takes in (70_reset_and_hazards.md R230; 00_scope.md R13): ENTRY, ARG0..ARG3, the instrumentation
toggle INSTR_EN, the program text `imem` (address and byte, addresses rising; D17), and the platform. -/
structure ResetInputs where
  entry : Word
  arg0 : Word
  arg1 : Word
  arg2 : Word
  arg3 : Word
  instrEn : Bool
  imem : List Host.Cell
  platform : Platform
  deriving DecidableEq, Repr

namespace Config

/-- The example configuration that closes 92_eei_decisions.md: STOP_PC = 0, STACK_BASE = 0x7000, STACK_SIZE = 0x1000,
DataRegions empty.  DESIGN CHOICE (log entry 1, unsafe): the hardware fixes none of these numbers. -/
def examplePlatform : Platform where
  stopPc := 0x0#64
  stackBase := 0x7000#64
  stackSize := 0x1000
  dataRegions := []

/-- The example configuration of 92_eei_decisions.md and 95_test_vectors.md: ENTRY = 0x1000, ARG0..3 = 0, INSTR_EN
true.  No program text: a program is the environment's (log entries 1 and 2). -/
def exampleInputs : ResetInputs where
  entry := 0x1000#64
  arg0 := 0#64
  arg1 := 0#64
  arg2 := 0#64
  arg3 := 0#64
  instrEn := true
  imem := []
  platform := examplePlatform

end Config

end Sys2Proof
end

