-- ==== Sys2Proof/Machine/State.lean ====
section
/-! DEFINITION. Everything the spec gives the machine (10_state.md section 1), as plain data, the reasons a step can
stop, and the state after reset (70_reset_and_hazards.md R230, 10_state.md R37). -/

namespace Sys2Proof.Machine

/-- The seven instrumentation counters, 64 bits each (10_state.md R33, D16). -/
structure Counters where
  total : Word
  alu : Word
  load : Word
  store : Word
  jump : Word
  brTaken : Word
  brNotTaken : Word
  deriving DecidableEq, Repr

/-- The names of the counters, as `count(c)` takes them (40_step_and_dispatch.md R118). -/
inductive CounterName where
  | total | alu | load | store | jump | brTaken | brNotTaken
  deriving DecidableEq, Repr

/-- The width of a data access: 1, 4 or 8 bytes and no other (20_memory.md R52, R53, R56). -/
inductive Width where
  | byte | word | double
  deriving DecidableEq, Repr

/-- The content of the fatal latch, `(category, field, iw, pc)` (10_state.md R29, 60_exceptions.md R201, D14). -/
structure FatalRecord where
  category : Category
  field : OffendingField
  iw : InstrWord
  pc : Word
  deriving DecidableEq, Repr

/-- Whether the block may take a step; derived, not stored (10_state.md R38). -/
inductive RunStatus where
  | running | halted | fatal
  deriving DecidableEq, Repr

/-- Memory as sparse data: (address, byte) pairs in one canonical form, `Memory.wf` (Machine/Ops.lean). -/
abbrev Memory := List Host.Cell

/-- The program text `imem`: a partial map from address to byte, its pairs in rising order of address (R34). -/
abbrev Text := List Host.Cell

/-- The reasons a step gives no next state. -/
inductive Fault where
  /-- `pc = STOP_PC`: the normal, terminal end of a run; no step is enabled (10_state.md R38, 40_step_and_dispatch.md
  R111, R112).  Raised by `step` alone, never by an instruction.  Safe: the hardware takes no step either (log 11). -/
  | halted
  /-- The fatal latch is set: no step is enabled until reset (R38, 60_exceptions.md R204).  Raised by `step` alone.
  Safe: the hardware takes no step either (log 10). -/
  | fatalStop (r : FatalRecord)
  /-- The model fault MemUndefined(addr, n): some byte of the access lies outside the stack region and DataRegions
  (20_memory.md R58, D15).  Raised by loads and stores.  Safe: the model stops where the document leaves the effect
  undefined (log 13). -/
  | memUndefined (addr : Word) (n : Nat)
  /-- The model fault FetchUndefined(pc): some byte of the fetched word lies outside `imem` (R62, D26).  Raised by
  `step`.  Safe (log 14). -/
  | fetchUndefined (pc : Word)
  /-- The model fault StoreToText(addr): a store to defined memory hits the domain of `imem` (R63, D17).  Raised by
  stores.  Safe: a later fetch could see either word (log 15). -/
  | storeToText (addr : Word)
  deriving DecidableEq, Repr

/-- The reasons an instruction has no meaning here. -/
inductive Refusal where
  /-- The instruction of that mnemonic has no meaning yet.  Raised by `exec`'s arms alone; no arm raises it now.  Safe. -/
  | notModelled (mnemonic : String)
  deriving DecidableEq, Repr

/-- The whole state (10_state.md section 1: "There is nothing else"), and the parameters a running block consults. -/
structure State where
  /-- `x[0..31]` (R20); slot 0 is never read and never written (R21). -/
  regs : Vector Word 32
  /-- `pc` (R24). -/
  pc : Word
  /-- `mem` (R31): the bytes that differ from their reset value. -/
  mem : Memory
  /-- `imem` (R34): fixed at reset, written by no step. -/
  imem : Text
  /-- `ctr` (R33). -/
  ctr : Counters
  /-- INSTR_EN (R28): set at reset, written by no step. -/
  instrEn : Bool
  /-- The fatal latch (R29). -/
  fatal : Option FatalRecord
  /-- STOP_PC, the stack region and DataRegions (00_scope.md R5): written by no step (log 1). -/
  platform : Platform
  deriving DecidableEq, Repr

/-- All counters 0 (R37). -/
def Counters.zero : Counters := ⟨0#64, 0#64, 0#64, 0#64, 0#64, 0#64, 0#64⟩

/-- The register file after reset (R230, R37): all zero, then x1 = STOP_PC (D4), x2 = STACK_BASE + STACK_SIZE (D5),
x10..x13 = ARG0..ARG3.  The register numbers of the roles: R22, D3. -/
def resetRegs (inp : ResetInputs) : Vector Word 32 :=
  (((((((Vector.replicate 32 (0#64 : Word)).set 1 inp.platform.stopPc).set 2
    (inp.platform.stackBase + BitVec.ofNat 64 inp.platform.stackSize)).set 10 inp.arg0).set 11 inp.arg1).set 12
    inp.arg2).set 13 inp.arg3)

/-- The reset operation of 70_reset_and_hazards.md R230 on its inputs.  Memory lists nothing: the stack reads as zero
and DataRegions as MemInit where nothing has been written (`Platform.initialByte`). -/
def State.resetWith (inp : ResetInputs) : State where
  regs := resetRegs inp
  pc := inp.entry
  mem := []
  imem := inp.imem
  ctr := Counters.zero
  instrEn := inp.instrEn
  fatal := none
  platform := inp.platform

/-- The machine right after reset, on the spec's example configuration (92_eei_decisions.md; log entries 1 and 2). -/
def State.reset : State := State.resetWith Config.exampleInputs

end Sys2Proof.Machine
end

