-- ==== Sys2Proof/Machine/Ops.lean ====
section
/-! DEFINITION. The named operations over registers, memory, program text, counters, pc and the fatal latch that every
meaning is written with. -/

namespace Sys2Proof.Machine

/-- What an instruction or a step answers. -/
abbrev Result := Host.Outcome State Fault Refusal

/-! ### Registers (10_state.md R20, R21) -/

/-- `x[r]`: register 0 reads as zero. -/
def State.readReg (s : State) (r : Reg) : Word := if r = 0 then 0#64 else s.regs[r.val]'r.isLt

/-- `x[r] <- v`: a write of register 0 is discarded. -/
def State.writeReg (s : State) (r : Reg) (v : Word) : State :=
  if r = 0 then s else { s with regs := s.regs.set r.val v r.isLt }

/-- The return-value register (R22, R113). -/
def returnReg : Reg := 10

/-! ### Program counter (10_state.md R25, R26): every addition is modulo 2^64, nothing checks alignment -/

/-- `pc <- target`. -/
def State.setPc (s : State) (target : Word) : State := { s with pc := target }

/-- The address of the next sequential instruction. -/
def State.nextPc (s : State) : Word := s.pc + 4#64

/-- The target of a jump or branch: relative to the instruction's own address. -/
def State.relativePc (s : State) (imm : Int) : Word := s.pc + BitVec.ofInt 64 imm

/-! ### Counters (10_state.md R33, 40_step_and_dispatch.md R118) -/

/-- One counter higher by one, modulo 2^64. -/
def Counters.bump (k : Counters) : CounterName → Counters
  | .total => { k with total := k.total + 1#64 }
  | .alu => { k with alu := k.alu + 1#64 }
  | .load => { k with load := k.load + 1#64 }
  | .store => { k with store := k.store + 1#64 }
  | .jump => { k with jump := k.jump + 1#64 }
  | .brTaken => { k with brTaken := k.brTaken + 1#64 }
  | .brNotTaken => { k with brNotTaken := k.brNotTaken + 1#64 }

/-- `count(c)`: gated by INSTR_EN. -/
def State.count (s : State) (c : CounterName) : State := if s.instrEn then { s with ctr := s.ctr.bump c } else s

/-- The counter update of an executed instruction: `count(total); count(c)`. -/
def State.retire (s : State) (c : CounterName) : State := (s.count .total).count c

/-! ### Sparse byte maps: lists of (address, byte), addresses strictly rising -/

/-- The byte listed at an address. -/
def lookupCell : List Host.Cell → Nat → Option Byte
  | [], _ => none
  | (k, b) :: rest, a => if k = a then some b else lookupCell rest a

/-- The map with `b` listed at `a`. -/
def insertCell (a : Nat) (b : Byte) : List Host.Cell → List Host.Cell
  | [] => [(a, b)]
  | (k, c) :: rest =>
    if a < k then (a, b) :: (k, c) :: rest
    else if a = k then (a, b) :: rest
    else (k, c) :: insertCell a b rest

/-- The map with nothing listed at `a`. -/
def eraseCell (a : Nat) : List Host.Cell → List Host.Cell
  | [] => []
  | (k, c) :: rest => if k = a then eraseCell a rest else (k, c) :: eraseCell a rest

/-- Addresses strictly rise. -/
def risingCells : List Host.Cell → Bool
  | [] => true
  | [_] => true
  | x :: y :: rest => decide (x.1 < y.1) && risingCells (y :: rest)

/-! ### Data memory (10_state.md R31, R32; 20_memory.md) -/

/-- The MemInit byte a data region gives an address, if the address is one of its own. -/
def regionByte (r : DataRegion) (a : Nat) : Option Byte :=
  if r.base.toNat ≤ a then r.bytes[a - r.base.toNat]? else none

/-- The address lies in `STACK_BASE .. STACK_BASE + STACK_SIZE - 1` (R32). -/
def inStack (p : Platform) (a : Nat) : Bool :=
  decide (p.stackBase.toNat ≤ a) && decide (a < p.stackBase.toNat + p.stackSize)

/-- What an unlisted address reads as: the reset contents (R37, R230), or nothing where no memory is defined (R58).
DataRegions win over the stack where the two overlap, as the later assignment of R230 does (log entry 16). -/
def Platform.initialByte (p : Platform) (a : Nat) : Option Byte :=
  if a < 2 ^ 64 then
    match p.dataRegions.findSome? (fun r => regionByte r a) with
    | some b => some b
    | none => if inStack p a then some 0#8 else none
  else none

/-- The canonical form of memory on a platform: addresses strictly rise, and every listed byte stands at a defined
address and differs from what that address reads as when unlisted. -/
def Memory.wf (p : Platform) (m : Memory) : Bool :=
  risingCells m && m.all (fun c => decide (Platform.initialByte p c.1 ≠ none) &&
    decide (Platform.initialByte p c.1 ≠ some c.2))

/-- The byte at an address, where one is defined (R31). -/
def Memory.readByte (p : Platform) (m : Memory) (a : Nat) : Option Byte :=
  match Platform.initialByte p a with
  | none => none
  | some d => some ((lookupCell m a).getD d)

/-- Memory after writing `b` at a defined address; an undefined address takes no byte. -/
def Memory.writeByte (p : Platform) (m : Memory) (a : Nat) (b : Byte) : Memory :=
  match Platform.initialByte p a with
  | none => m
  | some d => if b = d then eraseCell a m else insertCell a b m

/-- The `n` bytes at `addr`, `addr + 1`, … modulo 2^64, the lowest address first; none if one is undefined (R52). -/
def Memory.readBytes (p : Platform) (m : Memory) (addr : Word) : Nat → Option (List Byte)
  | 0 => some []
  | n + 1 =>
    match Memory.readByte p m addr.toNat with
    | none => none
    | some b => (Memory.readBytes p m (addr + 1#64) n).map (fun rest => b :: rest)

/-- Memory after writing bytes at `addr`, `addr + 1`, … modulo 2^64 (R53). -/
def Memory.writeBytes (p : Platform) (m : Memory) (addr : Word) : List Byte → Memory
  | [] => m
  | b :: rest => Memory.writeBytes p (Memory.writeByte p m addr.toNat b) (addr + 1#64) rest

/-- The number of bytes an access moves (R56). -/
def Width.bytes : Width → Nat
  | .byte => 1
  | .word => 4
  | .double => 8

/-- The byte at an address of the data space. -/
def State.readByte (s : State) (a : Nat) : Option Byte := Memory.readByte s.platform s.mem a

/-- Some byte of `addr .. addr + n - 1` (modulo 2^64) is in the domain of `imem` (R63). -/
def hitsText (t : Text) (addr : Word) : Nat → Bool
  | 0 => false
  | n + 1 => (lookupCell t addr.toNat).isSome || hitsText t (addr + 1#64) n

/-- `MemRead(addr, n)`, zero-extended to 64 bits (R52, R56), or the model fault MemUndefined (R58).  No alignment is
asked for (R55). -/
def State.load (s : State) (addr : Word) (w : Width) : Except Fault Word :=
  match Memory.readBytes s.platform s.mem addr w.bytes with
  | none => .error (.memUndefined addr w.bytes)
  | some bytes => .ok (BitVec.ofNat 64 (leValue bytes))

/-- `MemWrite(addr, n, v)`: the low `8n` bits of `v`, least significant byte first (R53).  The model faults:
MemUndefined where a byte is undefined (R58), and otherwise StoreToText where a byte is program text (R63; the order:
log entry 15).  A store that faults writes no byte. -/
def State.store (s : State) (addr : Word) (w : Width) (v : Word) : Except Fault State :=
  match Memory.readBytes s.platform s.mem addr w.bytes with
  | none => .error (.memUndefined addr w.bytes)
  | some _ =>
    if hitsText s.imem addr w.bytes then .error (.storeToText addr)
    else .ok { s with mem := Memory.writeBytes s.platform s.mem addr (leBytes w.bytes v.toNat) }

/-! ### Instruction fetch (20_memory.md R51, R60 to R62) -/

/-- The `n` bytes of text at `addr`, `addr + 1`, … modulo 2^64; none if one is outside `imem`. -/
def textBytes (t : Text) (addr : Word) : Nat → Option (List Byte)
  | 0 => some []
  | n + 1 =>
    match lookupCell t addr.toNat with
    | none => none
    | some b => (textBytes t (addr + 1#64) n).map (fun rest => b :: rest)

/-- `Fetch(a)`: the four bytes at `a`, the first in bits 7..0; any alignment (R61); none outside `imem` (R62). -/
def fetchWord (t : Text) (a : Word) : Option InstrWord := (textBytes t a 4).map wordOfBytes

/-- Program text with bytes put at `addr`, `addr + 1`, … modulo 2^64: what a loader does before reset, no step does. -/
def putText (t : Text) (addr : Word) : List Byte → Text
  | [] => t
  | b :: rest => putText (insertCell addr.toNat b t) (addr + 1#64) rest

/-! ### Run status and result (10_state.md R38, 40_step_and_dispatch.md R110, R113) -/

/-- Fatal when the latch is set, otherwise halted when `pc = STOP_PC`, otherwise running. -/
def State.status (s : State) : RunStatus :=
  match s.fatal with
  | some _ => .fatal
  | none => if s.pc = s.platform.stopPc then .halted else .running

/-- The block's result: `x[10]` when halted, nothing otherwise (R113, 60_exceptions.md R204). -/
def State.result (s : State) : Option Word :=
  match s.status with
  | .halted => some (s.readReg returnReg)
  | .running => none
  | .fatal => none

/-! ### Taking the one exception (60_exceptions.md R201) -/

/-- `raise Fatal(category, field)`: the latch takes the report, the word and its address; nothing else changes.  There
is no return from it beside it: R204 gives none, and only reset clears the latch. -/
def State.raiseFatal (s : State) (u : Unsupported) (iw : InstrWord) : State :=
  { s with fatal := some ⟨u.category, u.field, iw, s.pc⟩ }

/-! ### The common ends of an instruction -/

/-- `count(total); count(c); pc <- pc + 4`, after the instruction's own effect. -/
def State.finishSequential (s : State) (c : CounterName) : Result := .next ((s.retire c).setPc s.nextPc)

/-- `x[rd] <- v; count(total); count(c); pc <- pc + 4`. -/
def State.finishWrite (s : State) (rd : Reg) (v : Word) (c : CounterName) : Result :=
  (s.writeReg rd v).finishSequential c

/-- `pc <- target; count(total); count(c)`. -/
def State.finishRedirect (s : State) (target : Word) (c : CounterName) : Result :=
  .next ((s.retire c).setPc target)

end Sys2Proof.Machine
end

