-- ==== Sys2Proof/Machine/Operands.lean ====
section
/-! DEFINITION. Every operand form: base plus displacement, shift amounts, the low word of a register, and the common
bodies of the families over their operands. -/

namespace Sys2Proof.Machine

/-- The effective address `x[rs1] + imm` modulo 2^64, the only addressing mode (47_store.md, 48_load.md, R184). -/
def State.effectiveAddress (s : State) (rs1 : Reg) (imm : Int) : Word := s.readReg rs1 + BitVec.ofInt 64 imm

/-- The 64-bit shift amount of SLL and SRL: bits 5:0 of the register, the rest ignored (41_r_type.md R134, R135; D9;
log entry 8). -/
def shiftAmount64 (v : Word) : Nat := (v.extractLsb' 0 6).toNat

/-- The 32-bit shift amount of SLLW and SRAW: bits 4:0 of the register (45_w_variant.md R161, R162). -/
def shiftAmount32 (v : Word) : Nat := (v.extractLsb' 0 5).toNat

/-- The low 32 bits of a register, the W operand (R161, R162). -/
def lowWord (v : Word) : BitVec 32 := v.extractLsb' 0 32

/-- `sext_32`: a 32-bit result in a 64-bit register (00_scope.md R6). -/
def sext32 (v : BitVec 32) : Word := v.signExtend 64

/-- `x[rd] <- op(x[rs1], x[rs2])` and the common tail of 41_r_type.md and 45_w_variant.md. -/
def aluRegReg (op : Word → Word → Word) (rd rs1 rs2 : Reg) (s : State) : Result :=
  s.finishWrite rd (op (s.readReg rs1) (s.readReg rs2)) .alu

/-- `x[rd] <- op(x[rs1])`, the operation holding the immediate, and the common tail of 44_i_arith.md. -/
def aluReg (op : Word → Word) (rd rs1 : Reg) (s : State) : Result := s.finishWrite rd (op (s.readReg rs1)) .alu

/-- The common body of 48_load.md. -/
def loadFrom (w : Width) (rd rs1 : Reg) (imm : Int) (s : State) : Result :=
  match s.load (s.effectiveAddress rs1 imm) w with
  | .error f => .fault f
  | .ok v => s.finishWrite rd v .load

/-- The common body of 47_store.md. -/
def storeTo (w : Width) (rs1 rs2 : Reg) (imm : Int) (s : State) : Result :=
  match s.store (s.effectiveAddress rs1 imm) w (s.readReg rs2) with
  | .error f => .fault f
  | .ok t => t.finishSequential .store

/-- The common body of 46_branch.md. -/
def branchIf (cond : Word → Word → Bool) (rs1 rs2 : Reg) (imm : Int) (s : State) : Result :=
  if cond (s.readReg rs1) (s.readReg rs2) then s.finishRedirect (s.relativePc imm) .brTaken
  else s.finishRedirect s.nextPc .brNotTaken

end Sys2Proof.Machine
end

