-- ==== Sys2Proof/Machine/Branch.lean ====
section
/-! DEFINITION. The conditional branches (46_branch.md R171 to R174). -/

namespace Sys2Proof.Machine

/-- BEQ (R171). -/
def execBeq (rs1 rs2 : Reg) (imm : Int) (s : State) : Result := branchIf condEq rs1 rs2 imm s

/-- BNE (R172). -/
def execBne (rs1 rs2 : Reg) (imm : Int) (s : State) : Result := branchIf condNe rs1 rs2 imm s

/-- BLT (R173). -/
def execBlt (rs1 rs2 : Reg) (imm : Int) (s : State) : Result := branchIf condLt rs1 rs2 imm s

/-- BGE (R174). -/
def execBge (rs1 rs2 : Reg) (imm : Int) (s : State) : Result := branchIf condGe rs1 rs2 imm s

end Sys2Proof.Machine
end

