-- ==== Sys2Proof/Machine/IArith.lean ====
section
/-! DEFINITION. The immediate arithmetic instructions (44_i_arith.md R151, R152). -/

namespace Sys2Proof.Machine

/-- ADDI (R151). -/
def execAddi (rd rs1 : Reg) (imm : Int) (s : State) : Result := aluReg (fun a => a + BitVec.ofInt 64 imm) rd rs1 s

/-- SRLI (R152): the whole 64-bit register, by a literal count. -/
def execSrli (rd rs1 : Reg) (shamt : BitVec 5) (s : State) : Result := aluReg (fun a => a >>> shamt.toNat) rd rs1 s

end Sys2Proof.Machine
end

