-- ==== Sys2Proof/Machine/Jump.lean ====
section
/-! DEFINITION. The jumps: JALR (42_jalr.md R140) and JAL (43_jal.md R145). -/

namespace Sys2Proof.Machine

/-- JALR (R140): `pc <- x[rs1]`, all 64 bits; no register is written (D11, log entry 9). -/
def execJalr (rs1 : Reg) (s : State) : Result := s.finishRedirect (s.readReg rs1) .jump

/-- JAL (R145): the link and the target both use the address of the JAL itself. -/
def execJal (rd : Reg) (imm : Int) (s : State) : Result :=
  (s.writeReg rd s.nextPc).finishRedirect (s.relativePc imm) .jump

end Sys2Proof.Machine
end

