-- ==== Sys2Proof/Machine/Load.lean ====
section
/-! DEFINITION. The loads (48_load.md R190 to R192), all zero-extending (D20). -/

namespace Sys2Proof.Machine

/-- LB (R190): one byte, zero-extended. -/
def execLb (rd rs1 : Reg) (imm : Int) (s : State) : Result := loadFrom .byte rd rs1 imm s

/-- LW (R191): four bytes, zero-extended. -/
def execLw (rd rs1 : Reg) (imm : Int) (s : State) : Result := loadFrom .word rd rs1 imm s

/-- LD (R192): eight bytes. -/
def execLd (rd rs1 : Reg) (imm : Int) (s : State) : Result := loadFrom .double rd rs1 imm s

end Sys2Proof.Machine
end

