-- ==== Sys2Proof/Machine/RType.lean ====
section
/-! DEFINITION. The R-type instructions (41_r_type.md R131 to R136): 64-bit arithmetic that wraps, no flags, no trap. -/

namespace Sys2Proof.Machine

/-- ADD (R131). -/
def execAdd (rd rs1 rs2 : Reg) (s : State) : Result := aluRegReg (fun a b => a + b) rd rs1 rs2 s

/-- MUL (R132): the low 64 bits of the product. -/
def execMul (rd rs1 rs2 : Reg) (s : State) : Result := aluRegReg (fun a b => a * b) rd rs1 rs2 s

/-- SUB (R133): `rs1` minus `rs2`. -/
def execSub (rd rs1 rs2 : Reg) (s : State) : Result := aluRegReg (fun a b => a - b) rd rs1 rs2 s

/-- SLL (R134; the amount `x[rs2][5:0]`: D9, log entry 8). -/
def execSll (rd rs1 rs2 : Reg) (s : State) : Result := aluRegReg (fun a b => a <<< shiftAmount64 b) rd rs1 rs2 s

/-- SRL (R135; the amount `x[rs2][5:0]`: D9, log entry 8). -/
def execSrl (rd rs1 rs2 : Reg) (s : State) : Result := aluRegReg (fun a b => a >>> shiftAmount64 b) rd rs1 rs2 s

/-- AND (R136). -/
def execAnd (rd rs1 rs2 : Reg) (s : State) : Result := aluRegReg (fun a b => a &&& b) rd rs1 rs2 s

end Sys2Proof.Machine
end

