-- ==== Sys2Proof/Machine/Store.lean ====
section
/-! DEFINITION. The stores (47_store.md R181 to R183). -/

namespace Sys2Proof.Machine

/-- SB (R181): one byte. -/
def execSb (rs1 rs2 : Reg) (imm : Int) (s : State) : Result := storeTo .byte rs1 rs2 imm s

/-- SW (R182): four bytes. -/
def execSw (rs1 rs2 : Reg) (imm : Int) (s : State) : Result := storeTo .word rs1 rs2 imm s

/-- SD (R183): eight bytes. -/
def execSd (rs1 rs2 : Reg) (imm : Int) (s : State) : Result := storeTo .double rs1 rs2 imm s

end Sys2Proof.Machine
end

