-- ==== Sys2Proof/Machine/WShift.lean ====
section
/-! DEFINITION. The W-variants (45_w_variant.md R161, R162): 32-bit shifts, the result sign-extended. -/

namespace Sys2Proof.Machine

/-- SLLW (R161). -/
def execSllw (rd rs1 rs2 : Reg) (s : State) : Result :=
  aluRegReg (fun a b => sext32 (lowWord a <<< shiftAmount32 b)) rd rs1 rs2 s

/-- SRAW (R162). -/
def execSraw (rd rs1 rs2 : Reg) (s : State) : Result :=
  aluRegReg (fun a b => sext32 ((lowWord a).sshiftRight (shiftAmount32 b))) rd rs1 rs2 s

end Sys2Proof.Machine
end

