-- ==== Sys2Proof/Machine/Step.lean ====
section
/-! DEFINITION. One step of the machine (40_step_and_dispatch.md R111, 60_exceptions.md R203): the fatal and halt tests,
the fetch, the decode, then either the instruction or the fatal condition. -/

namespace Sys2Proof.Machine

/-- One step.  A block that is fatal or halted has none (10_state.md R38; log entries 10 and 11). -/
def step (s : State) : Host.Outcome State Fault Refusal :=
  match s.fatal with
  | some r => .fault (.fatalStop r)
  | none =>
    if s.pc = s.platform.stopPc then .fault .halted
    else
      match fetchWord s.imem s.pc with
      | none => .fault (.fetchUndefined s.pc)
      | some iw =>
        match decodeWord iw with
        | .ok i => exec i s
        | .error u => .next (s.raiseFatal u iw)

/-- The state with an instruction's bytes stored where the next step fetches: at `pc` in the program text.  It stands
for the load of a program from outside the machine (log entry 2); a halted or fatal block still takes no step. -/
def State.withFetchWord (s : State) (nbits w : Nat) : State :=
  { s with imem := putText s.imem s.pc (tableBytes nbits w) }

end Sys2Proof.Machine
end

