-- ==== Sys2Proof/Machine/Run.lean ====
section
/-! DEFINITION. The run loop (40_step_and_dispatch.md R110, R120; 00_scope.md R14), under fuel: the hardware has no step
limit (R114), so running out of fuel is no end of a run (log entry 19). -/

namespace Sys2Proof.Machine

/-- How a fuelled run stands when it stops: the three ends of R120, a refusal, or fuel that ran out. -/
inductive RunEnd where
  /-- `pc = STOP_PC`: the result is `x[10]`. -/
  | halted (result : Word) (s : State)
  /-- The fatal latch is set: no result. -/
  | fatal (r : FatalRecord) (s : State)
  /-- A model fault: the document calls the run undefined. -/
  | modelFault (f : Fault) (s : State)
  | refused (r : Refusal) (s : State)
  | outOfFuel (s : State)
  deriving DecidableEq, Repr

/-- The end of a run whose state `s` has no step, by the fault `step` gave. -/
def endOf (f : Fault) (s : State) : RunEnd :=
  match f with
  | .halted => .halted (s.readReg returnReg) s
  | .fatalStop r => .fatal r s
  | .memUndefined a n => .modelFault (.memUndefined a n) s
  | .fetchUndefined p => .modelFault (.fetchUndefined p) s
  | .storeToText a => .modelFault (.storeToText a) s

/-- `run()`: at most `fuel` steps. -/
def run : Nat → State → RunEnd
  | 0, s =>
    match s.status with
    | .halted => endOf .halted s
    | .running => .outOfFuel s
    | .fatal =>
      match s.fatal with
      | some r => endOf (.fatalStop r) s
      | none => .outOfFuel s
  | fuel + 1, s =>
    match step s with
    | .next t => run fuel t
    | .fault f => endOf f s
    | .refused r => .refused r s

end Sys2Proof.Machine
end

