-- ==== Sys2Proof/Safety.lean ====
section
/-! DEFINITION. What counts as a safe run, and the launch premises the environment owes (70_reset_and_hazards.md R232). -/

namespace Sys2Proof.Machine

/-- The constraint on the open parameters: STACK_SIZE > 0 and STACK_BASE + STACK_SIZE <= 2^64 (92_eei_decisions.md). -/
def platformFits (p : Platform) : Bool :=
  decide (0 < p.stackSize) && decide (p.stackBase.toNat + p.stackSize ≤ 2 ^ 64)

/-- No address of the program text is defined data memory: the launch premise of R63 and R232. -/
def textApart (t : Text) (p : Platform) : Bool := t.all (fun c => decide (Platform.initialByte p c.1 = none))

/-- The text holds the word at ENTRY, which the first step fetches, unless the block is halted at reset: R232's first row
as far as the inputs alone settle it, and the constraint on ENTRY of 92_eei_decisions.md.  "Contains" is taken for all
four bytes of the word, since R62 asks for all four. -/
def entryFetchable (inp : ResetInputs) : Bool :=
  decide (inp.entry = inp.platform.stopPc) || (fetchWord inp.imem inp.entry).isSome

/-- The launch premises of R232 that the inputs of reset settle: parameters that fit, text in rising order that holds
ENTRY's word (row 1), and text apart from data (the first form of row 6).  The stack region is defined memory (row 4) and
INSTR_EN is fixed (row 8) by the state itself. -/
def launchPremises (inp : ResetInputs) : Bool :=
  platformFits inp.platform && risingCells inp.imem && entryFetchable inp && textApart inp.imem inp.platform

/-- A set fatal latch holds what put it there: the word at `pc`, which is unsupported, and its report (60_exceptions.md
R201), in a block that was not halted. -/
def State.latchSound (s : State) : Prop :=
  ∀ r, s.fatal = some r → r.pc = s.pc ∧ s.pc ≠ s.platform.stopPc ∧ fetchWord s.imem s.pc = some r.iw ∧
    decodeWord r.iw = .error ⟨r.category, r.field⟩

/-- The invariant of the machine: the slot of register 0 holds 0 (10_state.md R21), memory is in its canonical form, the
total counter is the sum of the six others modulo 2^64 and all seven are 0 when INSTR_EN is false (R33), and a set latch
is sound. -/
def State.Inv (s : State) : Prop :=
  s.regs[0] = 0#64 ∧ Memory.wf s.platform s.mem = true ∧
  s.ctr.total = s.ctr.alu + s.ctr.load + s.ctr.store + s.ctr.jump + s.ctr.brTaken + s.ctr.brNotTaken ∧
  (s.instrEn = false → s.ctr = Counters.zero) ∧ s.latchSound

/-- The faults that mark a run the document calls undefined (40_step_and_dispatch.md R120). -/
def Fault.isModelFault : Fault → Bool
  | .halted => false
  | .fatalStop _ => false
  | .memUndefined _ _ => true
  | .fetchUndefined _ => true
  | .storeToText _ => true

/-- The run from `s` halts normally within `fuel` steps: the only safe end (R110, R120). -/
def haltsWithin (fuel : Nat) (s : State) : Prop := ∃ v t, run fuel s = .halted v t

/-- All the premises of R232 on one launch, the rows about the run with them.  A run that halts has fetched only text
(row 1), needed no instruction at STOP_PC (row 2), met only the 22 instructions (row 3), loaded and stored only in
defined memory (row 5), stored to no text (row 6, in its second form) and reached STOP_PC (row 7); it need not have its
text apart from data. -/
def soundLaunch (fuel : Nat) (inp : ResetInputs) : Prop :=
  platformFits inp.platform = true ∧ risingCells inp.imem = true ∧ entryFetchable inp = true ∧
    haltsWithin fuel (State.resetWith inp)

end Sys2Proof.Machine
end

