-- ==== Sys2Proof/WellFormed.lean ====
section
/-! DEFINITION. Which instruction terms an encoding exists for: the ranges of 30_encoding.md R80 to R85.  Register
numbers and shift counts are in range by their types. -/

namespace Sys2Proof

/-- The 12-bit signed range of the I and S immediates: -2048 .. 2047 (R80, R81). -/
def immFits12 (v : Int) : Bool := decide (-2048 ≤ v) && decide (v ≤ 2047)

/-- The B displacements: even, -4096 .. 4094 (R82). -/
def immFitsB (v : Int) : Bool := decide (-4096 ≤ v) && decide (v ≤ 4094) && decide (v % 2 = 0)

/-- The J displacements: even, -1048576 .. 1048574 (R83). -/
def immFitsJ (v : Int) : Bool := decide (-1048576 ≤ v) && decide (v ≤ 1048574) && decide (v % 2 = 0)

/-- The instruction has an encoding: every immediate is a value its format can hold. -/
def Instr.wf : Instr → Bool
  | .add _ _ _ => true
  | .mul _ _ _ => true
  | .sub _ _ _ => true
  | .sll _ _ _ => true
  | .srl _ _ _ => true
  | .and _ _ _ => true
  | .jalr _ => true
  | .jal _ imm => immFitsJ imm
  | .addi _ _ imm => immFits12 imm
  | .srli _ _ _ => true
  | .sllw _ _ _ => true
  | .sraw _ _ _ => true
  | .beq _ _ imm => immFitsB imm
  | .bne _ _ imm => immFitsB imm
  | .blt _ _ imm => immFitsB imm
  | .bge _ _ imm => immFitsB imm
  | .sb _ _ imm => immFits12 imm
  | .sw _ _ imm => immFits12 imm
  | .sd _ _ imm => immFits12 imm
  | .lb _ _ imm => immFits12 imm
  | .lw _ _ imm => immFits12 imm
  | .ld _ _ imm => immFits12 imm

end Sys2Proof
end

