-- ==== Sys2Proof/Certificates/Slice0/Obligations.lean ====
section
/-! DEFINITION. The statements about this machine, each from a rule of the spec.  The words they share (what "register
rd takes v", "counted as c", "everything else kept" mean) stand first, over what can be read of a state: registers,
bytes, pc, counters and the fixed fields. -/

namespace Sys2Proof.Claims

open Sys2Proof.Machine

/-! ### Reading a word and a number, independently of the decoder and the meanings -/

/-- The register number in the five bits of the word from bit `lo` up. -/
def regAt (iw : InstrWord) (lo : Nat) : Reg := ⟨iw.toNat / 2 ^ lo % 32, Nat.mod_lt _ (by decide)⟩

/-- Bits 31:20 as a signed number (30_encoding.md R80). -/
def dispI (iw : InstrWord) : Int := (iw.extractLsb' 20 12).toInt

/-- Bits 31:25 above bits 11:7, signed (R81). -/
def dispS (iw : InstrWord) : Int := (iw.extractLsb' 25 7 ++ iw.extractLsb' 7 5).toInt

/-- Bits 31, 7, 30:25, 11:8 and a 0, signed (R82). -/
def dispB (iw : InstrWord) : Int :=
  (iw.extractLsb' 31 1 ++ iw.extractLsb' 7 1 ++ iw.extractLsb' 25 6 ++ iw.extractLsb' 8 4 ++ 0#1).toInt

/-- Bits 31, 19:12, 20, 30:21 and a 0, signed (R83). -/
def dispJ (iw : InstrWord) : Int :=
  (iw.extractLsb' 31 1 ++ iw.extractLsb' 12 8 ++ iw.extractLsb' 20 1 ++ iw.extractLsb' 21 10 ++ 0#1).toInt

/-- Every word that matches `value` under `mask` decodes to the instruction `f` reads from it. -/
def DecodesAs (value mask : InstrWord) (f : InstrWord → Instr) : Prop :=
  ∀ iw, iw &&& mask = value → decodeWord iw = .ok (f iw)

/-- `signed(v)` of a 64-bit pattern (00_scope.md R6). -/
def signed64 (v : Word) : Int := if v.toNat < 2 ^ 63 then v.toNat else (v.toNat : Int) - 2 ^ 64

/-- The low 32 bits of a number read as a signed 32-bit integer (45_w_variant.md R162). -/
def signed32 (n : Nat) : Int :=
  if n % 2 ^ 32 < 2 ^ 31 then (n % 2 ^ 32 : Nat) else ((n % 2 ^ 32 : Nat) : Int) - 2 ^ 32

/-- The byte address `a + k` modulo 2^64 (20_memory.md R52). -/
def addrAt (a : Word) (k : Nat) : Nat := (a.toNat + k) % 2 ^ 64

/-! ### What an instruction changed and what it kept -/

/-- Register `rd` takes `v` (nothing, if `rd` is register 0) and every other register is unchanged (10_state.md R21). -/
def RegTakes (s t : State) (rd : Reg) (v : Word) : Prop :=
  t.readReg 0 = 0#64 ∧ (rd ≠ 0 → t.readReg rd = v) ∧ ∀ r, r ≠ rd → t.readReg r = s.readReg r

/-- Every register is unchanged. -/
def RegsKept (s t : State) : Prop := ∀ r, t.readReg r = s.readReg r

/-- Every byte of memory reads as before. -/
def MemKept (s t : State) : Prop := ∀ a, t.readByte a = s.readByte a

/-- The program text, the toggle, the parameters and the fatal latch are unchanged. -/
def FixedKept (s t : State) : Prop :=
  t.imem = s.imem ∧ t.instrEn = s.instrEn ∧ t.platform = s.platform ∧ t.fatal = s.fatal

/-- The pc moves by `d`, modulo 2^64 (R26). -/
def PcMoves (s t : State) (d : Int) : Prop := (t.pc.toNat : Int) = ((s.pc.toNat : Int) + d) % 2 ^ 64

/-- A counter of the record by its name. -/
def counter (k : Counters) : CounterName → Word
  | .total => k.total
  | .alu => k.alu
  | .load => k.load
  | .store => k.store
  | .jump => k.jump
  | .brTaken => k.brTaken
  | .brNotTaken => k.brNotTaken

/-- `count(total); count(c)`: these two counters are higher by one when INSTR_EN, every other is unchanged
(40_step_and_dispatch.md R118). -/
def CountedAs (s t : State) (c : CounterName) : Prop :=
  ∀ k, counter t.ctr k = counter s.ctr k + if s.instrEn = true ∧ (k = .total ∨ k = c) then 1#64 else 0#64

/-- The rule of an arithmetic or logic instruction that gives `rd` the value `v`: it completes, with its frame. -/
def AluRule (i : Instr) (s : State) (rd : Reg) (v : Word) : Prop :=
  ∃ t, exec i s = .next t ∧ RegTakes s t rd v ∧ PcMoves s t 4 ∧ CountedAs s t .alu ∧ MemKept s t ∧ FixedKept s t

/-- The rule of a branch that is taken exactly when `cond`: it completes, with its frame (46_branch.md). -/
def BranchRule (i : Instr) (s : State) (imm : Int) (cond : Prop) : Prop :=
  ∃ t, exec i s = .next t ∧ (cond → PcMoves s t imm ∧ CountedAs s t .brTaken) ∧
    (¬cond → PcMoves s t 4 ∧ CountedAs s t .brNotTaken) ∧ RegsKept s t ∧ MemKept s t ∧ FixedKept s t

/-- The `n` bytes from the address `ea` on, in data memory, are `b 0`, `b 1`, …. -/
def HoldsBytes (s : State) (ea : Word) (n : Nat) (b : Nat → Byte) : Prop :=
  ∀ k < n, s.readByte (addrAt ea k) = some (b k)

/-- Some byte of the access lies outside defined memory (20_memory.md R58). -/
def SomeUndefined (s : State) (ea : Word) (n : Nat) : Prop := ∃ k < n, s.readByte (addrAt ea k) = none

/-- Some byte of the access is program text (20_memory.md R63). -/
def SomeText (s : State) (ea : Word) (n : Nat) : Prop := ∃ k < n, lookupCell s.imem (addrAt ea k) ≠ none

/-- `ea = (x[rs1] + imm) mod 2^64` (48_load.md, 47_store.md). -/
def AddressRule (s : State) (rs1 : Reg) (imm : Int) : Prop :=
  ((s.effectiveAddress rs1 imm).toNat : Int) = (((s.readReg rs1).toNat : Int) + imm) % 2 ^ 64

/-- The rule of a load of `n` bytes: with its bytes defined it completes; `rd` takes the little-endian value of the
bytes, zero-extended; memory is unchanged. -/
def LoadRule (mk : Reg → Reg → Int → Instr) (n : Nat) : Prop :=
  ∀ rd rs1 imm (s : State), AddressRule s rs1 imm ∧
    ∀ b, HoldsBytes s (s.effectiveAddress rs1 imm) n b →
      ∃ t, exec (mk rd rs1 imm) s = .next t ∧
        RegTakes s t rd (BitVec.ofNat 64 (Finset.sum (Finset.range n) fun k => (b k).toNat * 2 ^ (8 * k))) ∧
        (t.readReg rd).toNat < 2 ^ (8 * n) ∧
        PcMoves s t 4 ∧ CountedAs s t .load ∧ MemKept s t ∧ FixedKept s t

/-- The rule of a store of `n` bytes: with its bytes defined and none of them text it completes; the bytes from the
effective address on take the low bytes of `x[rs2]`, least significant first, and every other byte is unchanged. -/
def StoreRule (mk : Reg → Reg → Int → Instr) (n : Nat) : Prop :=
  ∀ rs1 rs2 imm (s : State), AddressRule s rs1 imm ∧
    (¬SomeUndefined s (s.effectiveAddress rs1 imm) n → ¬SomeText s (s.effectiveAddress rs1 imm) n →
      ∃ t, exec (mk rs1 rs2 imm) s = .next t ∧
        HoldsBytes t (s.effectiveAddress rs1 imm) n (fun k => (s.readReg rs2).extractLsb' (8 * k) 8) ∧
        (∀ a, (∀ k < n, a ≠ addrAt (s.effectiveAddress rs1 imm) k) → t.readByte a = s.readByte a) ∧
        RegsKept s t ∧ PcMoves s t 4 ∧ CountedAs s t .store ∧ FixedKept s t)

/-- A load of `n` bytes that finds one undefined stops with MemUndefined at its address. -/
def LoadStops (mk : Reg → Reg → Int → Instr) (n : Nat) : Prop :=
  ∀ rd rs1 imm (s : State), SomeUndefined s (s.effectiveAddress rs1 imm) n →
    exec (mk rd rs1 imm) s = .fault (.memUndefined (s.effectiveAddress rs1 imm) n)

/-- A store of `n` bytes that finds one undefined stops with MemUndefined at its address. -/
def StoreStops (mk : Reg → Reg → Int → Instr) (n : Nat) : Prop :=
  ∀ rs1 rs2 imm (s : State), SomeUndefined s (s.effectiveAddress rs1 imm) n →
    exec (mk rs1 rs2 imm) s = .fault (.memUndefined (s.effectiveAddress rs1 imm) n)

/-- A store of `n` defined bytes that finds one in the program text stops with StoreToText at its address. -/
def StoreStopsOnText (mk : Reg → Reg → Int → Instr) (n : Nat) : Prop :=
  ∀ rs1 rs2 imm (s : State), ¬SomeUndefined s (s.effectiveAddress rs1 imm) n →
    SomeText s (s.effectiveAddress rs1 imm) n →
    exec (mk rs1 rs2 imm) s = .fault (.storeToText (s.effectiveAddress rs1 imm))

/-- After a store of `n` bytes, a load of `m` of them from offset `j` completes and gives those bytes of the stored
register, zero-extended. -/
def ReadsBack (st ld : Reg → Reg → Int → Instr) (n m : Nat) : Prop :=
  ∀ s t rs1 rs2 imm, exec (st rs1 rs2 imm) s = .next t →
    ∀ rd rb imm' j, j + m ≤ n →
      t.effectiveAddress rb imm' = s.effectiveAddress rs1 imm + BitVec.ofNat 64 j →
      ∃ u, exec (ld rd rb imm') t = .next u ∧
        RegTakes t u rd (BitVec.ofNat 64 ((s.readReg rs2).toNat / 2 ^ (8 * j) % 2 ^ (8 * m)))

/-! ### Tables of the spec, as functions of the instruction -/

/-- The counter an instruction counts in (10_state.md R33); a branch by its condition. -/
def classOf (s : State) : Instr → CounterName
  | .add _ _ _ | .mul _ _ _ | .sub _ _ _ | .sll _ _ _ | .srl _ _ _ | .and _ _ _ => .alu
  | .addi _ _ _ | .srli _ _ _ | .sllw _ _ _ | .sraw _ _ _ => .alu
  | .jalr _ | .jal _ _ => .jump
  | .sb _ _ _ | .sw _ _ _ | .sd _ _ _ => .store
  | .lb _ _ _ | .lw _ _ _ | .ld _ _ _ => .load
  | .beq a b _ => if s.readReg a = s.readReg b then .brTaken else .brNotTaken
  | .bne a b _ => if s.readReg a ≠ s.readReg b then .brTaken else .brNotTaken
  | .blt a b _ => if signed64 (s.readReg a) < signed64 (s.readReg b) then .brTaken else .brNotTaken
  | .bge a b _ => if signed64 (s.readReg b) ≤ signed64 (s.readReg a) then .brTaken else .brNotTaken

/-- The new pc, before reduction modulo 2^64 (10_state.md R25). -/
def nextPcOf (s : State) : Instr → Int
  | .add _ _ _ | .mul _ _ _ | .sub _ _ _ | .sll _ _ _ | .srl _ _ _ | .and _ _ _ => s.pc.toNat + 4
  | .addi _ _ _ | .srli _ _ _ | .sllw _ _ _ | .sraw _ _ _ => s.pc.toNat + 4
  | .sb _ _ _ | .sw _ _ _ | .sd _ _ _ | .lb _ _ _ | .lw _ _ _ | .ld _ _ _ => s.pc.toNat + 4
  | .jalr rs1 => (s.readReg rs1).toNat
  | .jal _ imm => s.pc.toNat + imm
  | .beq a b imm => s.pc.toNat + if s.readReg a = s.readReg b then imm else 4
  | .bne a b imm => s.pc.toNat + if s.readReg a ≠ s.readReg b then imm else 4
  | .blt a b imm => s.pc.toNat + if signed64 (s.readReg a) < signed64 (s.readReg b) then imm else 4
  | .bge a b imm => s.pc.toNat + if signed64 (s.readReg b) ≤ signed64 (s.readReg a) then imm else 4

/-- The registers an instruction reads (10_state.md R23). -/
def sources : Instr → List Reg
  | .add _ a b | .mul _ a b | .sub _ a b | .sll _ a b | .srl _ a b | .and _ a b | .sllw _ a b | .sraw _ a b => [a, b]
  | .addi _ a _ | .srli _ a _ | .lb _ a _ | .lw _ a _ | .ld _ a _ => [a]
  | .sb a b _ | .sw a b _ | .sd a b _ | .beq a b _ | .bne a b _ | .blt a b _ | .bge a b _ => [a, b]
  | .jal _ _ => []
  | .jalr a => [a]

/-- The register an instruction writes (10_state.md R23). -/
def destination : Instr → Option Reg
  | .add d _ _ | .mul d _ _ | .sub d _ _ | .sll d _ _ | .srl d _ _ | .and d _ _ | .sllw d _ _ | .sraw d _ _ => some d
  | .addi d _ _ | .srli d _ _ | .lb d _ _ | .lw d _ _ | .ld d _ _ | .jal d _ => some d
  | .sb _ _ _ | .sw _ _ _ | .sd _ _ _ | .beq _ _ _ | .bne _ _ _ | .blt _ _ _ | .bge _ _ _ | .jalr _ => none

/-- The conditional branches. -/
def isBranch : Instr → Prop
  | .beq _ _ _ | .bne _ _ _ | .blt _ _ _ | .bge _ _ _ => True
  | .add _ _ _ | .mul _ _ _ | .sub _ _ _ | .sll _ _ _ | .srl _ _ _ | .and _ _ _ | .sllw _ _ _ | .sraw _ _ _ => False
  | .addi _ _ _ | .srli _ _ _ | .sb _ _ _ | .sw _ _ _ | .sd _ _ _ | .lb _ _ _ | .lw _ _ _ | .ld _ _ _ => False
  | .jal _ _ | .jalr _ => False

/-- The instructions of a list executed one after another, if all of them complete. -/
def execAll : List Instr → State → Option State
  | [], s => some s
  | i :: rest, s =>
    match exec i s with
    | .next t => execAll rest t
    | .fault _ => none
    | .refused _ => none

/-- The block may take a step (10_state.md R38). -/
def Running (s : State) : Prop := s.fatal = none ∧ s.pc ≠ s.platform.stopPc

/-- The bytes at the pc are this word of the text. -/
def Fetches (s : State) (iw : InstrWord) : Prop := fetchWord s.imem s.pc = some iw

end Sys2Proof.Claims

open Sys2Proof Sys2Proof.Machine Sys2Proof.Claims

/-! ### Bit primitives and encoding -/

/-- 00_scope.md R7: the field's value, the law that shifting it back gives the masked value, and the rule's example. -/
def Obligations.ExtractBitsTakesField : Prop :=
  (∀ (v : Word) (start count : Nat) (h : start + count ≤ 64),
    (extractBits v start count h).toNat = v.toNat / 2 ^ start % 2 ^ count ∧
    ((extractBits v start count h).setWidth 64 <<< start : Word) =
      v &&& ((BitVec.ofNat 64 (2 ^ count - 1)) <<< start)) ∧
  (extractBits 0x002081B3#64 7 5).toNat = 3

/-- 00_scope.md R8: the law of `sign_extend`, the bits of the result's pattern, and the rule's examples. -/
def Obligations.SignExtendPropagatesSignBit : Prop :=
  (∀ (v : Word) (start : Fin 64),
    (v.getLsbD start.val = false → signExtend v start = (v.toNat % 2 ^ (start.val + 1) : Nat)) ∧
    (v.getLsbD start.val = true → signExtend v start < 0 ∧
      signExtend v start = ((v.toNat % 2 ^ (start.val + 1) : Nat) : Int) - 2 ^ (start.val + 1)) ∧
    ∀ j < 64, (BitVec.ofInt 64 (signExtend v start)).getLsbD j = v.getLsbD (min j start.val)) ∧
  signExtend 0xFFF#64 11 = -1 ∧ signExtend 0x7FF#64 11 = 2047 ∧ signExtend 0x1800#64 11 = -2048

/-- 00_scope.md R9: `get_bit` is whether bit `index` is 1, and the rule's example. -/
def Obligations.GetBitReadsOneBit : Prop :=
  (∀ (v : Word) (index : Fin 64), getBit v index = true ↔ v.toNat / 2 ^ index.val % 2 = 1) ∧
  getBit 0x80000000#64 31 = true

/-- 30_encoding.md R80 to R83: the four immediates are the signed readings of the listed bits, within the listed ranges,
and B and J are even; the round trip of the J immediate; with the rules' examples. -/
def Obligations.ImmediatesFollowTheBitLayout : Prop :=
  (∀ iw, immI iw = dispI iw ∧ -2048 ≤ immI iw ∧ immI iw ≤ 2047) ∧
  (∀ iw, immS iw = dispS iw ∧ -2048 ≤ immS iw ∧ immS iw ≤ 2047) ∧
  (∀ iw, immB iw = dispB iw ∧ -4096 ≤ immB iw ∧ immB iw ≤ 4094 ∧ immB iw % 2 = 0) ∧
  (∀ iw, immJ iw = dispJ iw ∧ -1048576 ≤ immJ iw ∧ immJ iw ≤ 1048574 ∧ immJ iw % 2 = 0) ∧
  (∀ (rd : Reg) (v : Int), -1048576 ≤ v → v ≤ 1048574 → v % 2 = 0 → immJ (encode (.jal rd v)) = v) ∧
  immI 0xFFF28293#32 = -1 ∧ immS 0xFE20B823#32 = -16 ∧ immB 0xFE208CE3#32 = -8 ∧
  immJ 0x8000006F#32 = -1048576 ∧ immJ 0x7FFFF06F#32 = 1048574 ∧ immJ 0x0000006F#32 = 0 ∧ immJ 0xFFDFF06F#32 = -4

/-- One word of every family, as the spec writes it out (95_test_vectors.md V1, and V6 for the LW), decodes to its
instruction.  The opcode values and field places rest on D1 and D2 (log entries 3 and 4), and that the JALR word needs no
further test on D11 (log entry 9). -/
def Obligations.SampleWordsDecode : Prop :=
  decodeWord 0x002081B3#32 = .ok (.add 3 1 2) ∧ decodeWord 0x4020D1BB#32 = .ok (.sraw 3 1 2) ∧
  decodeWord 0xFFF28293#32 = .ok (.addi 5 5 (-1)) ∧ decodeWord 0xFE20B823#32 = .ok (.sd 1 2 (-16)) ∧
  decodeWord 0xFE20DCE3#32 = .ok (.bge 1 2 (-8)) ∧ decodeWord 0x008000EF#32 = .ok (.jal 1 8) ∧
  decodeWord 0x00008067#32 = .ok (.jalr 1) ∧ decodeWord 0x0080A183#32 = .ok (.lw 3 1 8)

/-- Every word that matches a row of the opcode map decodes to that row's instruction, its registers, displacement and
shift amount read from their bits (30_encoding.md R71, R92 to R98).  The opcode values and the places of `rd`, `funct3`
and `rs1` are the spec's own (D1, D2; log entries 3 and 4), and so is that a JALR word's other bits are ignored (D11;
log entry 9). -/
def Obligations.WordsDecodeToTheirInstruction : Prop :=
  DecodesAs 0x00000033#32 0xFE00707F#32 (fun iw => .add (regAt iw 7) (regAt iw 15) (regAt iw 20)) ∧
  DecodesAs 0x02000033#32 0xFE00707F#32 (fun iw => .mul (regAt iw 7) (regAt iw 15) (regAt iw 20)) ∧
  DecodesAs 0x40000033#32 0xFE00707F#32 (fun iw => .sub (regAt iw 7) (regAt iw 15) (regAt iw 20)) ∧
  DecodesAs 0x00001033#32 0xFE00707F#32 (fun iw => .sll (regAt iw 7) (regAt iw 15) (regAt iw 20)) ∧
  DecodesAs 0x00005033#32 0xFE00707F#32 (fun iw => .srl (regAt iw 7) (regAt iw 15) (regAt iw 20)) ∧
  DecodesAs 0x00007033#32 0xFE00707F#32 (fun iw => .and (regAt iw 7) (regAt iw 15) (regAt iw 20)) ∧
  DecodesAs 0x00000067#32 0x0000007F#32 (fun iw => .jalr (regAt iw 15)) ∧
  DecodesAs 0x0000006F#32 0x0000007F#32 (fun iw => .jal (regAt iw 7) (dispJ iw)) ∧
  DecodesAs 0x00000013#32 0x0000707F#32 (fun iw => .addi (regAt iw 7) (regAt iw 15) (dispI iw)) ∧
  DecodesAs 0x00005013#32 0xFE00707F#32
    (fun iw => .srli (regAt iw 7) (regAt iw 15) (BitVec.ofNat 5 (iw.toNat / 2 ^ 20))) ∧
  DecodesAs 0x0000103B#32 0xFE00707F#32 (fun iw => .sllw (regAt iw 7) (regAt iw 15) (regAt iw 20)) ∧
  DecodesAs 0x4000503B#32 0xFE00707F#32 (fun iw => .sraw (regAt iw 7) (regAt iw 15) (regAt iw 20)) ∧
  DecodesAs 0x00000063#32 0x0000707F#32 (fun iw => .beq (regAt iw 15) (regAt iw 20) (dispB iw)) ∧
  DecodesAs 0x00001063#32 0x0000707F#32 (fun iw => .bne (regAt iw 15) (regAt iw 20) (dispB iw)) ∧
  DecodesAs 0x00004063#32 0x0000707F#32 (fun iw => .blt (regAt iw 15) (regAt iw 20) (dispB iw)) ∧
  DecodesAs 0x00005063#32 0x0000707F#32 (fun iw => .bge (regAt iw 15) (regAt iw 20) (dispB iw)) ∧
  DecodesAs 0x00000023#32 0x0000707F#32 (fun iw => .sb (regAt iw 15) (regAt iw 20) (dispS iw)) ∧
  DecodesAs 0x00002023#32 0x0000707F#32 (fun iw => .sw (regAt iw 15) (regAt iw 20) (dispS iw)) ∧
  DecodesAs 0x00003023#32 0x0000707F#32 (fun iw => .sd (regAt iw 15) (regAt iw 20) (dispS iw)) ∧
  DecodesAs 0x00000003#32 0x0000707F#32 (fun iw => .lb (regAt iw 7) (regAt iw 15) (dispI iw)) ∧
  DecodesAs 0x00002003#32 0x0000707F#32 (fun iw => .lw (regAt iw 7) (regAt iw 15) (dispI iw)) ∧
  DecodesAs 0x00003003#32 0x0000707F#32 (fun iw => .ld (regAt iw 7) (regAt iw 15) (dispI iw))

/-- Decoding the encoding of a well-formed instruction gives it back, every operand at every value its field admits
(30_encoding.md R85, which the spec marks derived). -/
def Obligations.DecodeOfEncodeIsIdentity : Prop := ∀ i : Instr, i.wf = true → decodeWord (encode i) = .ok i

/-- Every accepted word but a JALR is the encoding of the instruction it decodes to, which is well-formed: no bit is
ignored (30_encoding.md R101, which the spec marks derived).  Of a JALR word, opcode and `rs1` are all that is kept. -/
def Obligations.EncodeOfDecodeIsIdentity : Prop :=
  ∀ iw i, decodeWord iw = .ok i →
    i.wf = true ∧ ((∀ rs1, i ≠ .jalr rs1) → encode i = iw) ∧
    ∀ rs1, i = .jalr rs1 → encode i = iw &&& 0x000F807F#32

/-- 30_encoding.md R99: a word is accepted exactly when it matches a row of the opcode map. -/
def Obligations.AcceptedWordsAreTheTableRows : Prop :=
  ∀ iw, (∃ i, decodeWord iw = .ok i) ↔ ∃ row ∈ opcodeTable, iw &&& row.mask = row.value

/-- No word matches two rows (30_encoding.md R91: the tests are disjoint). -/
def Obligations.OpcodeRowsAreDisjoint : Prop :=
  ∀ iw, ∀ r ∈ opcodeTable, ∀ q ∈ opcodeTable, iw &&& r.mask = r.value → iw &&& q.mask = q.value → r = q

/-- The report of every unsupported word: category and field by the table of 60_exceptions.md R202, and the category
codes.  The categories' codes and the fields kept are the spec's own choice (D14; log entry 12). -/
def Obligations.UnsupportedWordsReportTheirCause : Prop :=
  (∀ iw : InstrWord,
    let op := iw.extractLsb' 0 7
    let f3 := iw.extractLsb' 12 3
    let f7 := iw.extractLsb' 25 7
    (op ∉ [0x33#7, 0x67#7, 0x13#7, 0x3B#7, 0x03#7, 0x63#7, 0x23#7, 0x6F#7] →
      decodeWord iw = .error ⟨.opcode, .opcode op⟩) ∧
    (op = 0x33#7 → (f3, f7) ∉ [(0#3, 0#7), (0#3, 1#7), (0#3, 0x20#7), (1#3, 0#7), (5#3, 0#7), (7#3, 0#7)] →
      decodeWord iw = .error ⟨.rType, .funct3and7 f3 f7⟩) ∧
    (op = 0x13#7 → f3 ≠ 0#3 → (f3, f7) ≠ (5#3, 0#7) → decodeWord iw = .error ⟨.iArith, .funct3and7 f3 f7⟩) ∧
    (op = 0x3B#7 → (f3, f7) ∉ [(1#3, 0#7), (5#3, 0x20#7)] → decodeWord iw = .error ⟨.wType, .funct3and7 f3 f7⟩) ∧
    (op = 0x03#7 → f3 ∉ [0#3, 2#3, 3#3] → decodeWord iw = .error ⟨.load, .funct3 f3⟩) ∧
    (op = 0x63#7 → f3 ∉ [0#3, 1#3, 4#3, 5#3] → decodeWord iw = .error ⟨.branch, .funct3 f3⟩) ∧
    (op = 0x23#7 → f3 ∉ [0#3, 2#3, 3#3] → decodeWord iw = .error ⟨.store, .funct3 f3⟩) ∧
    (op = 0x6F#7 ∨ op = 0x67#7 → ∃ i, decodeWord iw = .ok i)) ∧
  [Category.opcode, .rType, .iArith, .wType, .load, .branch, .store].map Category.code = [1, 2, 3, 4, 5, 6, 7]

/-! ### The step -/

/-- 40_step_and_dispatch.md R111: the step of a running block whose fetched word decodes is that instruction's. -/
def Obligations.StepRunsDecodedInstruction : Prop :=
  ∀ s iw i, Running s → Fetches s iw → decodeWord iw = .ok i → step s = exec i s

/-- 60_exceptions.md R201: an unsupported word puts (category, field, iw, pc) into the fatal latch and changes nothing
else.  The latch is the spec's own form of "terminates the entire process" (D14; log entry 10). -/
def Obligations.UnsupportedWordSetsTheLatchOnly : Prop :=
  ∀ s iw u, Running s → Fetches s iw → decodeWord iw = .error u →
    ∃ t, step s = .next t ∧ t.fatal = some ⟨u.category, u.field, iw, s.pc⟩ ∧
      RegsKept s t ∧ t.pc = s.pc ∧ MemKept s t ∧ t.ctr = s.ctr ∧
      t.imem = s.imem ∧ t.instrEn = s.instrEn ∧ t.platform = s.platform

/-- 10_state.md R38: what fatal, halted and running are, and that a halted or fatal block has no step. -/
def Obligations.StatusDecidesWhetherStepsExist : Prop :=
  ∀ s : State,
    (s.status = .fatal ↔ s.fatal ≠ none) ∧
    (s.status = .halted ↔ s.fatal = none ∧ s.pc = s.platform.stopPc) ∧
    (s.status = .running ↔ s.fatal = none ∧ s.pc ≠ s.platform.stopPc) ∧
    (s.status ≠ .running → ∀ t, step s ≠ .next t)

/-- The halt test comes before the fetch (40_step_and_dispatch.md R112): whatever the text holds, a block at STOP_PC
answers the stop named halted, and a fatal one the stop named fatalStop with its latch.  The two names are the model's
own (log entries 10 and 11). -/
def Obligations.StoppedBlockAnswersItsStop : Prop :=
  (∀ (s : State) (text : Text), s.fatal = none → s.pc = s.platform.stopPc →
    step { s with imem := text } = .fault .halted) ∧
  (∀ (s : State) (r : FatalRecord) (text : Text), s.fatal = some r →
    step { s with imem := text } = .fault (.fatalStop r))

/-- The fetch is little-endian at any alignment and wraps modulo 2^64 (20_memory.md R51, R60, R61: D6, D8), and a step
whose word is not wholly in the text stops with FetchUndefined (R62: D26); log entries 6, 7 and 14. -/
def Obligations.FetchReadsFourTextBytes : Prop :=
  (∀ (t : Text) (a : Word) (b0 b1 b2 b3 : Byte),
    lookupCell t (addrAt a 0) = some b0 → lookupCell t (addrAt a 1) = some b1 →
    lookupCell t (addrAt a 2) = some b2 → lookupCell t (addrAt a 3) = some b3 →
    ∃ iw, fetchWord t a = some iw ∧
      iw.toNat = b0.toNat + 2 ^ 8 * b1.toNat + 2 ^ 16 * b2.toNat + 2 ^ 24 * b3.toNat) ∧
  (∀ s, Running s → (∃ k < 4, lookupCell s.imem (addrAt s.pc k) = none) → step s = .fault (.fetchUndefined s.pc))

/-- Only an unsupported word raises the one exception (60_exceptions.md R200): after a step the latch is set exactly
when the fetched word was unsupported.  The latch itself is D14 (log entry 10). -/
def Obligations.OnlyUnsupportedWordsSetTheLatch : Prop :=
  ∀ s t, step s = .next t → (t.fatal ≠ none ↔ ∃ iw u, Fetches s iw ∧ decodeWord iw = .error u)

/-- Every instruction has its meaning: no step refuses (00_scope.md R2: the set is closed and modelled whole). -/
def Obligations.StepNeverRefuses : Prop := ∀ s r, step s ≠ .refused r

/-! ### The R-type instructions (41_r_type.md) -/

/-- R131: ADD. -/
def Obligations.AddWritesSum : Prop :=
  ∀ rd rs1 rs2 s, AluRule (.add rd rs1 rs2) s rd (BitVec.ofNat 64 ((s.readReg rs1).toNat + (s.readReg rs2).toNat))

/-- R132: MUL, the low 64 bits of the product. -/
def Obligations.MulWritesLowProduct : Prop :=
  ∀ rd rs1 rs2 s, AluRule (.mul rd rs1 rs2) s rd (BitVec.ofNat 64 ((s.readReg rs1).toNat * (s.readReg rs2).toNat))

/-- R133: SUB, `rs1` minus `rs2`. -/
def Obligations.SubWritesDifference : Prop :=
  ∀ rd rs1 rs2 s, AluRule (.sub rd rs1 rs2) s rd
    (BitVec.ofInt 64 (((s.readReg rs1).toNat : Int) - (s.readReg rs2).toNat))

/-- R134: SLL.  That the amount is `x[rs2][5:0]` when `x[rs2] >= 64` is the spec's own choice (D9; log entry 8). -/
def Obligations.SllShiftsLeftBySixBitAmount : Prop :=
  ∀ rd rs1 rs2 s, AluRule (.sll rd rs1 rs2) s rd
    (BitVec.ofNat 64 ((s.readReg rs1).toNat * 2 ^ ((s.readReg rs2).toNat % 64)))

/-- R135: SRL.  The amount as in R134 (D9; log entry 8). -/
def Obligations.SrlShiftsRightBySixBitAmount : Prop :=
  ∀ rd rs1 rs2 s, AluRule (.srl rd rs1 rs2) s rd
    (BitVec.ofNat 64 ((s.readReg rs1).toNat / 2 ^ ((s.readReg rs2).toNat % 64)))

/-- R136: AND, bit by bit. -/
def Obligations.AndWritesBitwiseConjunction : Prop :=
  ∀ rd rs1 rs2 s, ∃ v : Word, AluRule (.and rd rs1 rs2) s rd v ∧
    ∀ j < 64, v.getLsbD j = ((s.readReg rs1).getLsbD j && (s.readReg rs2).getLsbD j)

/-! ### The jumps -/

/-- 42_jalr.md R140: JALR takes `x[rs1]` whole and writes no register.  That no immediate is added, bit 0 is kept and no
link is written is the spec's own choice (D11; log entry 9). -/
def Obligations.JalrSetsPcToRegister : Prop :=
  ∀ rs1 s, ∃ t, exec (.jalr rs1) s = .next t ∧ t.pc = s.readReg rs1 ∧ CountedAs s t .jump ∧
    RegsKept s t ∧ MemKept s t ∧ FixedKept s t

/-- 43_jal.md R145: JAL links `pc + 4` and jumps relative to its own address. -/
def Obligations.JalLinksAndJumps : Prop :=
  ∀ rd imm s, ∃ t, exec (.jal rd imm) s = .next t ∧ RegTakes s t rd (BitVec.ofNat 64 (s.pc.toNat + 4)) ∧
    PcMoves s t imm ∧ CountedAs s t .jump ∧ MemKept s t ∧ FixedKept s t

/-! ### Immediate arithmetic (44_i_arith.md) -/

/-- R151: ADDI, one formula for every `rs1`. -/
def Obligations.AddiAddsSignedImmediate : Prop :=
  ∀ rd rs1 imm s, AluRule (.addi rd rs1 imm) s rd (BitVec.ofInt 64 (((s.readReg rs1).toNat : Int) + imm))

/-- R152: SRLI, a literal count of 0..31. -/
def Obligations.SrliShiftsRightByLiteral : Prop :=
  ∀ rd rs1 (shamt : BitVec 5) s,
    AluRule (.srli rd rs1 shamt) s rd (BitVec.ofNat 64 ((s.readReg rs1).toNat / 2 ^ shamt.toNat))

/-! ### W-variants (45_w_variant.md) -/

/-- R161: SLLW. -/
def Obligations.SllwShiftsLowWordLeft : Prop :=
  ∀ rd rs1 rs2 s, AluRule (.sllw rd rs1 rs2) s rd (BitVec.ofInt 64
    (signed32 ((s.readReg rs1).toNat % 2 ^ 32 * 2 ^ ((s.readReg rs2).toNat % 32))))

/-- R162: SRAW, "exactly: with `s = x[rs1][31:0]` read as a signed 32-bit integer, floor(s / 2^sh)". -/
def Obligations.SrawShiftsLowWordArithmetically : Prop :=
  ∀ rd rs1 rs2 s, AluRule (.sraw rd rs1 rs2) s rd (BitVec.ofInt 64
    (Int.fdiv (signed32 (s.readReg rs1).toNat) (2 ^ ((s.readReg rs2).toNat % 32))))

/-! ### Branches (46_branch.md) -/

/-- R171: BEQ, the two 64-bit patterns are identical. -/
def Obligations.BeqBranchesOnEqual : Prop :=
  ∀ rs1 rs2 imm s, BranchRule (.beq rs1 rs2 imm) s imm (s.readReg rs1 = s.readReg rs2)

/-- R172: BNE. -/
def Obligations.BneBranchesOnUnequal : Prop :=
  ∀ rs1 rs2 imm s, BranchRule (.bne rs1 rs2 imm) s imm (s.readReg rs1 ≠ s.readReg rs2)

/-- R173: BLT, on the signed readings. -/
def Obligations.BltBranchesOnSignedLess : Prop :=
  ∀ rs1 rs2 imm s, BranchRule (.blt rs1 rs2 imm) s imm (signed64 (s.readReg rs1) < signed64 (s.readReg rs2))

/-- R174: BGE, on the signed readings, and that it is taken exactly when BLT is not. -/
def Obligations.BgeBranchesOnSignedGreaterOrEqual : Prop :=
  ∀ rs1 rs2 imm s, BranchRule (.bge rs1 rs2 imm) s imm (signed64 (s.readReg rs2) ≤ signed64 (s.readReg rs1)) ∧
    BranchRule (.blt rs1 rs2 imm) s imm (¬signed64 (s.readReg rs2) ≤ signed64 (s.readReg rs1))

/-! ### Stores (47_store.md) and loads (48_load.md) -/

/-- R181: SB. -/
def Obligations.SbStoresLowByte : Prop := StoreRule .sb 1

/-- R182: SW. -/
def Obligations.SwStoresLowFourBytes : Prop := StoreRule .sw 4

/-- R183: SD. -/
def Obligations.SdStoresEightBytes : Prop := StoreRule .sd 8

/-- R190: LB, zero-extended. -/
def Obligations.LbLoadsZeroExtendedByte : Prop := LoadRule .lb 1

/-- R191: LW, zero-extended. -/
def Obligations.LwLoadsZeroExtendedWord : Prop := LoadRule .lw 4

/-- R192: LD. -/
def Obligations.LdLoadsEightBytes : Prop := LoadRule .ld 8

/-- A load with a byte outside the stack region and DataRegions stops with MemUndefined (20_memory.md R58: the spec's
own choice, D15; log entry 13). -/
def Obligations.LoadOutsideMemoryStops : Prop := LoadStops .lb 1 ∧ LoadStops .lw 4 ∧ LoadStops .ld 8

/-- A store with a byte outside the stack region and DataRegions stops with MemUndefined, whether or not it also hits
the text (20_memory.md R58, R203: D15; the order: log entries 13 and 15). -/
def Obligations.StoreOutsideMemoryStops : Prop := StoreStops .sb 1 ∧ StoreStops .sw 4 ∧ StoreStops .sd 8

/-- A store to defined memory that hits the program text stops with StoreToText (20_memory.md R63: D17; log entry
15). -/
def Obligations.StoreIntoTextStops : Prop :=
  StoreStopsOnText .sb 1 ∧ StoreStopsOnText .sw 4 ∧ StoreStopsOnText .sd 8

/-- The round-trip law (20_memory.md R57, 48_load.md R194, which the spec marks derived): a load of the stored width
gives the stored value, zero-extended. -/
def Obligations.StoredValueLoadsBack : Prop :=
  ReadsBack .sb .lb 1 1 ∧ ReadsBack .sw .lw 4 4 ∧ ReadsBack .sd .ld 8 8

/-- Mixed widths see the same bytes (20_memory.md R54, which the spec marks derived): a narrower load from any offset
inside a wider store. -/
def Obligations.NarrowLoadsSeeWideStores : Prop :=
  ReadsBack .sd .lw 8 4 ∧ ReadsBack .sd .lb 8 1 ∧ ReadsBack .sw .lb 4 1

/-! ### Whole-machine rules -/

/-- Register 0 reads as zero, a write of it is not observable, and an instruction whose destination is register 0 changes
no register (10_state.md R21; D18, log entry 17). -/
def Obligations.RegisterZeroIsHardwired : Prop :=
  (∀ (s : State) (v : Word), s.readReg 0 = 0#64 ∧ RegsKept s (s.writeReg 0 v)) ∧
  ∀ i s t, destination i = some 0 → exec i s = .next t → RegsKept s t

/-- The new pc of every instruction, and of an unsupported word, as the table of 10_state.md R25 has it.  That JALR takes
`x[rs1]` whole, with no offset and bit 0 kept, is the spec's own choice (D11; log entry 9), and so is the step that an
unsupported word takes into the latch (D14; log entry 10). -/
def Obligations.PcFollowsTheTable : Prop :=
  (∀ i s t, exec i s = .next t → (t.pc.toNat : Int) = nextPcOf s i % 2 ^ 64) ∧
  ∀ s t iw u, Fetches s iw → decodeWord iw = .error u → step s = .next t → t.pc = s.pc

/-- 46_branch.md R175: over any sequence of branches with INSTR_EN, taken + not taken grows by the number of branches;
one branch raises exactly one of the two, the taken one only when its condition holds. -/
def Obligations.BranchCountersAreExclusive : Prop :=
  (∀ (is : List Instr) (s : State), (∀ i ∈ is, isBranch i) → s.instrEn = true →
    ∃ t, execAll is s = some t ∧
      t.ctr.brTaken + t.ctr.brNotTaken = s.ctr.brTaken + s.ctr.brNotTaken + BitVec.ofNat 64 is.length) ∧
  ∀ i s t, isBranch i → s.instrEn = true → exec i s = .next t →
    (classOf s i = .brTaken ∧ t.ctr.brTaken = s.ctr.brTaken + 1#64 ∧ t.ctr.brNotTaken = s.ctr.brNotTaken) ∨
    (classOf s i = .brNotTaken ∧ t.ctr.brTaken = s.ctr.brTaken ∧ t.ctr.brNotTaken = s.ctr.brNotTaken + 1#64)

/-- 40_step_and_dispatch.md R118: every step that runs an instruction counts `total` and exactly the instruction's one
other counter when INSTR_EN, and nothing when not; the fatal path counts nothing. -/
def Obligations.EveryStepCountsItsClass : Prop :=
  ∀ s t iw, step s = .next t → Fetches s iw →
    (∀ i, decodeWord iw = .ok i → classOf s i ≠ .total ∧ CountedAs s t (classOf s i)) ∧
    (∀ u, decodeWord iw = .error u → t.ctr = s.ctr) ∧
    (s.instrEn = false → t.ctr = s.ctr)

/-- The state after reset, for every value of the parameters (10_state.md R37, 70_reset_and_hazards.md R230).  The
register numbers, the seed of x1, the exact sp and the latch are the spec's own choices (D3, D4, D5, D14; log entries 5
and 10); that a region wins over the stack where they overlap is log entry 16. -/
def Obligations.ResetLeavesTheListedValues : Prop :=
  ∀ inp : ResetInputs, let s := State.resetWith inp
    s.readReg 1 = inp.platform.stopPc ∧
    (s.readReg 2).toNat = (inp.platform.stackBase.toNat + inp.platform.stackSize) % 2 ^ 64 ∧
    s.readReg 10 = inp.arg0 ∧ s.readReg 11 = inp.arg1 ∧ s.readReg 12 = inp.arg2 ∧ s.readReg 13 = inp.arg3 ∧
    (∀ r : Reg, r ∉ [1, 2, 10, 11, 12, 13] → s.readReg r = 0#64) ∧
    s.pc = inp.entry ∧ s.imem = inp.imem ∧ s.instrEn = inp.instrEn ∧ s.platform = inp.platform ∧
    (∀ k, counter s.ctr k = 0#64) ∧ s.fatal = none ∧
    s.status = (if inp.entry = inp.platform.stopPc then .halted else .running) ∧
    (∀ a < 2 ^ 64, (∀ d ∈ inp.platform.dataRegions, ¬(d.base.toNat ≤ a ∧ a < d.base.toNat + d.bytes.length)) →
      s.readByte a = if inp.platform.stackBase.toNat ≤ a ∧ a < inp.platform.stackBase.toNat + inp.platform.stackSize
        then some 0#8 else none) ∧
    (∀ before d after, inp.platform.dataRegions = before ++ d :: after →
      ∀ k < d.bytes.length, d.base.toNat + k < 2 ^ 64 →
        (∀ e ∈ before, ¬(e.base.toNat ≤ d.base.toNat + k ∧ d.base.toNat + k < e.base.toNat + e.bytes.length)) →
        s.readByte (d.base.toNat + k) = d.bytes[k]?)

/-- Reset meets the invariant, on the example configuration and on every other. -/
def Obligations.ResetMeetsTheInvariant : Prop :=
  State.reset.Inv ∧ ∀ inp : ResetInputs, (State.resetWith inp).Inv

/-- From every state that meets the invariant, a step gives a state that meets it: register 0's slot stays 0
(10_state.md R21), memory stays canonical, the total counter stays the sum of the others and all stay 0 without INSTR_EN
(R33), and a set latch holds the unsupported word at the pc (60_exceptions.md R201). -/
def Obligations.StepKeepsTheInvariant : Prop := ∀ s t, s.Inv → step s = .next t → t.Inv

/-- No step writes the program text, the toggle or a parameter (10_state.md R28, R34; D17, log entries 1 and 15). -/
def Obligations.StepsNeverChangeTextOrParameters : Prop :=
  ∀ s t, step s = .next t → t.imem = s.imem ∧ t.instrEn = s.instrEn ∧ t.platform = s.platform

/-- The counters and the toggle never influence registers, memory, pc, the latch or whether a step exists (10_state.md
R33, 60_exceptions.md R215): two blocks that differ in these alone step alike. -/
def Obligations.CountersInfluenceNothing : Prop :=
  ∀ (s : State) (c : Counters) (e : Bool),
    (∀ t, step s = .next t → ∃ c', step { s with ctr := c, instrEn := e } = .next { t with ctr := c', instrEn := e }) ∧
    ∀ f, step s = .fault f → step { s with ctr := c, instrEn := e } = .fault f

/-- An instruction reads no register but those 10_state.md R23 lists for it, and writes none but the one it lists (R23,
which the spec marks derived): a block whose other registers differ does the same. -/
def Obligations.OnlyListedRegistersAreReadOrWritten : Prop :=
  ∀ (i : Instr) (s t : State) (regs : Vector Word 32),
    (∀ r ∈ sources i, ({ s with regs := regs } : State).readReg r = s.readReg r) → exec i s = .next t →
    ∃ t', exec i { s with regs := regs } = .next t' ∧ t'.pc = t.pc ∧ t'.mem = t.mem ∧ t'.ctr = t.ctr ∧
      (∀ rd, destination i = some rd → t'.readReg rd = t.readReg rd) ∧
      ∀ r, destination i ≠ some r → t.readReg r = s.readReg r ∧
        t'.readReg r = ({ s with regs := regs } : State).readReg r

/-- Under the launch premise that the text is apart from defined memory no step stops with StoreToText (20_memory.md R63,
70_reset_and_hazards.md R232: the premise is the equivalent the spec names, D17). -/
def Obligations.SeparateTextIsNeverStoredTo : Prop :=
  ∀ s, textApart s.imem s.platform = true → ∀ a, step s ≠ .fault (.storeToText a)

/-- Memory in canonical form is determined by what it reads as: equal memories are equal data.  The form is the model's
(log entry 16). -/
def Obligations.CanonicalMemoryIsUnique : Prop :=
  ∀ p m₁ m₂, Memory.wf p m₁ = true → Memory.wf p m₂ = true →
    (∀ a, Memory.readByte p m₁ a = Memory.readByte p m₂ a) → m₁ = m₂

/-- A run that halts is not fatal, is at STOP_PC, and its result is `x[10]`; a run that ends fatal has the latch set
(40_step_and_dispatch.md R110, R113, R120).  That the result register is `x10` is the spec's own choice (D3; log entry
5), and so is the latch that stands for the fatal end (D14; log entry 10).  The fuel is the model's (log entry 19). -/
def Obligations.RunEndsAsItsStatusSays : Prop :=
  (∀ fuel s v t, run fuel s = .halted v t →
    t.fatal = none ∧ t.pc = t.platform.stopPc ∧ v = t.readReg 10 ∧ t.result = some v) ∧
  ∀ fuel s r t, run fuel s = .fatal r t → t.fatal = some r ∧ t.result = none

/-- A run that has ended is not changed by more fuel: its end is terminal (40_step_and_dispatch.md R113, 60_exceptions.md
R204).  The fuel is the model's (log entry 19). -/
def Obligations.MoreFuelKeepsTheEnd : Prop :=
  ∀ fuel more s, (∀ t, run fuel s ≠ .outOfFuel t) → run (fuel + more) s = run fuel s

/-- A jump or branch to STOP_PC is counted like any other and halts the block (40_step_and_dispatch.md R119, which the
spec marks derived; the stop's name: log entry 11). -/
def Obligations.JumpToStopPcCountsAndHalts : Prop :=
  ∀ i s t, (isBranch i ∨ (∃ rd imm, i = .jal rd imm) ∨ ∃ rs1, i = .jalr rs1) → s.fatal = none →
    exec i s = .next t → t.pc = s.platform.stopPc → CountedAs s t (classOf s i) ∧ step t = .fault .halted
end

