-- ==== Sys2Proof/Laws/Memory.lean ====
section
/-! SUPPORT. Sparse byte maps and data memory: read after write, and that every memory operation keeps the canonical
form. -/

namespace Sys2Proof.Machine

/-! ### Rising lists -/

theorem risingCells_cons (x : Host.Cell) (m : List Host.Cell) :
    risingCells (x :: m) = true ↔ (∀ y ∈ m, x.1 < y.1) ∧ risingCells m = true := by
  induction m generalizing x with
  | nil => simp [risingCells]
  | cons y rest ih =>
    simp only [risingCells, Bool.and_eq_true, decide_eq_true_eq, List.mem_cons, forall_eq_or_imp]
    constructor
    · rintro ⟨hxy, hr⟩
      exact ⟨⟨hxy, fun z hz => Nat.lt_trans hxy (((ih y).1 hr).1 z hz)⟩, hr⟩
    · rintro ⟨⟨hxy, -⟩, hr⟩
      exact ⟨hxy, hr⟩

theorem mem_insertCell {a : Nat} {b : Byte} {m : List Host.Cell} {c : Host.Cell} (h : c ∈ insertCell a b m) :
    c = (a, b) ∨ c ∈ m := by
  induction m with
  | nil => simpa [insertCell] using h
  | cons x rest ih =>
    simp only [insertCell] at h
    split at h
    · simpa using h
    · split at h
      · rcases List.mem_cons.1 h with h | h <;> simp [h]
      · rcases List.mem_cons.1 h with h | h
        · simp [h]
        · rcases ih h with h | h <;> simp [h]

theorem mem_eraseCell {a : Nat} {m : List Host.Cell} {c : Host.Cell} (h : c ∈ eraseCell a m) : c ∈ m := by
  induction m with
  | nil => simp [eraseCell] at h
  | cons x rest ih =>
    simp only [eraseCell] at h
    split at h
    · exact List.mem_cons_of_mem _ (ih h)
    · rcases List.mem_cons.1 h with h | h
      · simp [h]
      · exact List.mem_cons_of_mem _ (ih h)

theorem risingCells_insertCell (a : Nat) (b : Byte) {m : List Host.Cell} (h : risingCells m = true) :
    risingCells (insertCell a b m) = true := by
  induction m with
  | nil => rfl
  | cons x rest ih =>
    obtain ⟨hx, hr⟩ := (risingCells_cons x rest).1 h
    simp only [insertCell]
    split
    · rename_i hlt
      refine (risingCells_cons _ _).2 ⟨?_, h⟩
      intro y hy
      rcases List.mem_cons.1 hy with rfl | hy
      · exact hlt
      · exact Nat.lt_trans hlt (hx y hy)
    · split
      · rename_i heq
        exact (risingCells_cons _ _).2 ⟨fun y hy => heq ▸ hx y hy, hr⟩
      · rename_i hlt hne
        refine (risingCells_cons _ _).2 ⟨?_, ih hr⟩
        intro y hy
        rcases mem_insertCell hy with rfl | hy
        · exact Nat.lt_of_le_of_ne (Nat.le_of_not_lt hlt) (Ne.symm hne)
        · exact hx y hy

theorem risingCells_eraseCell (a : Nat) {m : List Host.Cell} (h : risingCells m = true) :
    risingCells (eraseCell a m) = true := by
  induction m with
  | nil => rfl
  | cons x rest ih =>
    obtain ⟨hx, hr⟩ := (risingCells_cons x rest).1 h
    simp only [eraseCell]
    split
    · exact ih hr
    · exact (risingCells_cons _ _).2 ⟨fun y hy => hx y (mem_eraseCell hy), ih hr⟩

/-! ### Lookup after a change -/

theorem lookupCell_eq_none {m : List Host.Cell} {a : Nat} (h : ∀ y ∈ m, a < y.1) : lookupCell m a = none := by
  induction m with
  | nil => rfl
  | cons x rest ih =>
    have hx : a < x.1 := h x (by simp)
    simp only [lookupCell]
    rw [if_neg (by omega)]
    exact ih fun y hy => h y (List.mem_cons_of_mem _ hy)

theorem mem_of_lookupCell {m : List Host.Cell} {a : Nat} {b : Byte} (h : lookupCell m a = some b) : (a, b) ∈ m := by
  induction m with
  | nil => simp [lookupCell] at h
  | cons x rest ih =>
    simp only [lookupCell] at h
    split at h
    · rename_i hk
      obtain rfl : x.2 = b := by simpa using h
      simp [← hk]
    · exact List.mem_cons_of_mem _ (ih h)

@[simp] theorem lookupCell_insertCell_same (a : Nat) (b : Byte) (m : List Host.Cell) :
    lookupCell (insertCell a b m) a = some b := by
  induction m with
  | nil => simp [insertCell, lookupCell]
  | cons x rest ih =>
    simp only [insertCell]
    split
    · simp [lookupCell]
    · split
      · simp [lookupCell]
      · rename_i hne
        simp only [lookupCell]
        rw [if_neg (fun h => hne h.symm)]
        exact ih

theorem lookupCell_insertCell_other {a a' : Nat} (b : Byte) (m : List Host.Cell) (h : a' ≠ a) :
    lookupCell (insertCell a b m) a' = lookupCell m a' := by
  induction m with
  | nil => simp [insertCell, lookupCell, Ne.symm h]
  | cons x rest ih =>
    simp only [insertCell]
    split
    · simp [lookupCell, Ne.symm h]
    · split
      · rename_i heq
        simp [lookupCell, Ne.symm h, ← heq]
      · simp only [lookupCell]
        rw [ih]

theorem lookupCell_eraseCell_same (a : Nat) (m : List Host.Cell) : lookupCell (eraseCell a m) a = none := by
  induction m with
  | nil => rfl
  | cons x rest ih =>
    simp only [eraseCell]
    split
    · exact ih
    · rename_i hk
      simp only [lookupCell]
      rw [if_neg hk]
      exact ih

theorem lookupCell_eraseCell_other {a a' : Nat} (m : List Host.Cell) (h : a' ≠ a) :
    lookupCell (eraseCell a m) a' = lookupCell m a' := by
  induction m with
  | nil => rfl
  | cons x rest ih =>
    simp only [eraseCell]
    split
    · rename_i hk
      simp [lookupCell, hk, Ne.symm h, ih]
    · simp only [lookupCell]
      rw [ih]

/-! ### The canonical form -/

theorem Memory.wf_iff (p : Platform) (m : Memory) :
    Memory.wf p m = true ↔ risingCells m = true ∧
      ∀ c ∈ m, Platform.initialByte p c.1 ≠ none ∧ Platform.initialByte p c.1 ≠ some c.2 := by
  simp [Memory.wf, List.all_eq_true]

/-- Memory as reset leaves it, with nothing listed, is canonical. -/
@[simp] theorem Memory.wf_nil (p : Platform) : Memory.wf p [] = true := rfl

theorem Memory.writeByte_wf {p : Platform} {m : Memory} (a : Nat) (b : Byte) (h : Memory.wf p m = true) :
    Memory.wf p (Memory.writeByte p m a b) = true := by
  obtain ⟨hr, hc⟩ := (Memory.wf_iff p m).1 h
  simp only [Memory.writeByte]
  split
  · exact h
  · rename_i d hd
    split
    · exact (Memory.wf_iff _ _).2 ⟨risingCells_eraseCell a hr, fun c hm => hc c (mem_eraseCell hm)⟩
    · rename_i hne
      refine (Memory.wf_iff _ _).2 ⟨risingCells_insertCell a b hr, fun c hm => ?_⟩
      rcases mem_insertCell hm with rfl | hm
      · simp only [hd]
        exact ⟨by simp, fun e => hne (by simpa using e.symm)⟩
      · exact hc c hm

theorem Memory.writeBytes_wf {p : Platform} (bytes : List Byte) {m : Memory} (addr : Word)
    (h : Memory.wf p m = true) : Memory.wf p (Memory.writeBytes p m addr bytes) = true := by
  induction bytes generalizing m addr with
  | nil => exact h
  | cons b rest ih => exact ih (addr + 1#64) (Memory.writeByte_wf addr.toNat b h)

/-! ### Read after write -/

/-- A defined address reads back the byte written to it. -/
theorem Memory.readByte_writeByte_same {p : Platform} {m : Memory} {a : Nat} {b d : Byte}
    (hd : Platform.initialByte p a = some d) :
    Memory.readByte p (Memory.writeByte p m a b) a = some b := by
  simp only [Memory.readByte, Memory.writeByte, hd]
  split
  · rename_i hb
    simp [lookupCell_eraseCell_same, hb]
  · simp

theorem Memory.readByte_writeByte_other {p : Platform} {m : Memory} {a a' : Nat} (b : Byte) (h : a' ≠ a) :
    Memory.readByte p (Memory.writeByte p m a b) a' = Memory.readByte p m a' := by
  simp only [Memory.readByte, Memory.writeByte]
  split
  · rfl
  · split
    · rfl
    · split
      · rw [lookupCell_eraseCell_other m h]
      · rw [lookupCell_insertCell_other b m h]

/-- Which addresses are defined is the platform's, not memory's. -/
theorem Memory.readByte_isSome (p : Platform) (m : Memory) (a : Nat) :
    (Memory.readByte p m a).isSome = (Platform.initialByte p a).isSome := by
  simp only [Memory.readByte]
  split <;> simp_all

end Sys2Proof.Machine
end

