-- ==== Sys2Proof/Laws/Access.lean ====
section
/-! SUPPORT. Accesses of several bytes: `MemRead`, `MemWrite` and `Fetch` said once, through single bytes. -/

namespace Sys2Proof.Machine

/-- The address `addr + k` modulo 2^64. -/
theorem toNat_add_ofNat (addr : Word) (k : Nat) : (addr + BitVec.ofNat 64 k).toNat = (addr.toNat + k) % 2 ^ 64 := by
  simp [BitVec.toNat_add]

theorem add_one_add_ofNat (addr : Word) (k : Nat) :
    addr + 1#64 + BitVec.ofNat 64 k = addr + BitVec.ofNat 64 (k + 1) := by
  apply BitVec.eq_of_toNat_eq
  simp [BitVec.toNat_add]
  omega

/-- Two byte addresses of one access are different. -/
theorem add_ofNat_ne (addr : Word) {j k : Nat} (hj : j < 2 ^ 64) (hk : k < 2 ^ 64) (h : j ≠ k) :
    (addr + BitVec.ofNat 64 j).toNat ≠ (addr + BitVec.ofNat 64 k).toNat := by
  have := addr.isLt
  rw [toNat_add_ofNat, toNat_add_ofNat]
  omega

/-! ### Bytes of a number -/

@[simp] theorem length_leBytes (n v : Nat) : (leBytes n v).length = n := by
  induction n generalizing v with
  | zero => rfl
  | succ n ih => simp [leBytes, ih]

theorem getElem?_leBytes {n k : Nat} (v : Nat) (h : k < n) :
    (leBytes n v)[k]? = some (BitVec.ofNat 8 (v / 256 ^ k)) := by
  induction n generalizing v k with
  | zero => omega
  | succ n ih =>
    cases k with
    | zero => simp [leBytes]
    | succ k =>
      simp only [leBytes, List.getElem?_cons_succ]
      rw [ih (v / 256) (by omega), Nat.div_div_eq_div_mul, Nat.pow_succ, Nat.mul_comm]

theorem leValue_leBytes (n v : Nat) : leValue (leBytes n v) = v % 256 ^ n := by
  induction n generalizing v with
  | zero => simp [leBytes, leValue, Nat.mod_one]
  | succ n ih =>
    simp only [leBytes, leValue, ih, BitVec.toNat_ofNat]
    rw [show 256 ^ (n + 1) = 256 * 256 ^ n by rw [Nat.pow_succ, Nat.mul_comm], Nat.mod_mul]

theorem leValue_lt (bytes : List Byte) : leValue bytes < 256 ^ bytes.length := by
  induction bytes with
  | nil => simp [leValue]
  | cons b rest ih =>
    have := b.isLt
    simp only [leValue, List.length_cons, Nat.pow_succ]
    omega

/-! ### MemRead -/

theorem Memory.readBytes_eq_some {p : Platform} {m : Memory} {addr : Word} {n : Nat} {l : List Byte} :
    Memory.readBytes p m addr n = some l ↔
      l.length = n ∧ ∀ k < n, Memory.readByte p m (addr + BitVec.ofNat 64 k).toNat = l[k]? := by
  induction n generalizing addr l with
  | zero => cases l <;> simp [Memory.readBytes]
  | succ n ih =>
    simp only [Memory.readBytes]
    constructor
    · intro h
      split at h
      · simp at h
      · rename_i b hb
        obtain ⟨r, hr, rfl⟩ := Option.map_eq_some_iff.1 h
        obtain ⟨hl, hk⟩ := ih.1 hr
        refine ⟨by simp [hl], fun k hkn => ?_⟩
        cases k with
        | zero => simpa using hb
        | succ k =>
          rw [← add_one_add_ofNat, hk k (by omega)]
          simp
    · rintro ⟨hl, hk⟩
      cases l with
      | nil => simp at hl
      | cons b r =>
        have h0 := hk 0 (by omega)
        simp only [BitVec.add_zero, List.getElem?_cons_zero] at h0
        rw [h0]
        simp only [Option.map_eq_some_iff, List.cons.injEq, true_and, exists_eq_right]
        refine ih.2 ⟨by simpa using hl, fun k hkn => ?_⟩
        rw [add_one_add_ofNat, hk (k + 1) (by omega)]
        simp

theorem Memory.readBytes_eq_none {p : Platform} {m : Memory} {addr : Word} {n : Nat} :
    Memory.readBytes p m addr n = none ↔
      ∃ k < n, Memory.readByte p m (addr + BitVec.ofNat 64 k).toNat = none := by
  induction n generalizing addr with
  | zero => simp [Memory.readBytes]
  | succ n ih =>
    simp only [Memory.readBytes]
    constructor
    · intro h
      split at h
      · rename_i hb
        exact ⟨0, by omega, by simpa using hb⟩
      · obtain ⟨k, hk, h⟩ := ih.1 (Option.map_eq_none_iff.1 h)
        exact ⟨k + 1, by omega, by rw [← add_one_add_ofNat]; exact h⟩
    · rintro ⟨k, hk, h⟩
      split
      · rfl
      · rename_i b hb
        refine Option.map_eq_none_iff.2 (ih.2 ?_)
        cases k with
        | zero => simp [hb] at h
        | succ k => exact ⟨k, by omega, by rw [add_one_add_ofNat]; exact h⟩

/-! ### MemWrite -/

theorem Memory.readByte_writeBytes_other {p : Platform} (bytes : List Byte) {m : Memory} {addr : Word} {a : Nat}
    (h : ∀ k < bytes.length, a ≠ (addr + BitVec.ofNat 64 k).toNat) :
    Memory.readByte p (Memory.writeBytes p m addr bytes) a = Memory.readByte p m a := by
  induction bytes generalizing m addr with
  | nil => rfl
  | cons b rest ih =>
    simp only [Memory.writeBytes]
    rw [ih fun k hk => by rw [add_one_add_ofNat]; exact h (k + 1) (by simpa using hk)]
    exact Memory.readByte_writeByte_other b (by simpa using h 0 (by simp))

theorem Memory.readByte_writeBytes_at {p : Platform} (bytes : List Byte) {m : Memory} {addr : Word}
    (hl : bytes.length ≤ 2 ^ 64)
    (hd : ∀ k < bytes.length, Platform.initialByte p (addr + BitVec.ofNat 64 k).toNat ≠ none) {k : Nat}
    (hk : k < bytes.length) :
    Memory.readByte p (Memory.writeBytes p m addr bytes) (addr + BitVec.ofNat 64 k).toNat = bytes[k]? := by
  induction bytes generalizing m addr k with
  | nil => simp at hk
  | cons b rest ih =>
    simp only [List.length_cons] at hl hk hd
    simp only [Memory.writeBytes]
    cases k with
    | zero =>
      rw [Memory.readByte_writeBytes_other rest fun j hj => by
        rw [add_one_add_ofNat]; exact add_ofNat_ne addr (by omega) (by omega) (by omega)]
      obtain ⟨d, hd0⟩ := Option.ne_none_iff_exists'.1 (hd 0 (by omega))
      simp only [BitVec.add_zero] at hd0 ⊢
      simp [Memory.readByte_writeByte_same hd0]
    | succ k =>
      rw [← add_one_add_ofNat addr k]
      rw [ih (by omega)
        (fun j hj => by rw [add_one_add_ofNat]; exact hd (j + 1) (by omega)) (by omega)]
      simp

/-! ### Text -/

theorem hitsText_eq_true {t : Text} {addr : Word} {n : Nat} :
    hitsText t addr n = true ↔ ∃ k < n, lookupCell t (addr + BitVec.ofNat 64 k).toNat ≠ none := by
  induction n generalizing addr with
  | zero => simp [hitsText]
  | succ n ih =>
    simp only [hitsText, Bool.or_eq_true, Option.isSome_iff_ne_none, ih]
    constructor
    · rintro (h | ⟨k, hk, h⟩)
      · exact ⟨0, by omega, by simpa using h⟩
      · exact ⟨k + 1, by omega, by rw [← add_one_add_ofNat]; exact h⟩
    · rintro ⟨k, hk, h⟩
      cases k with
      | zero => exact .inl (by simpa using h)
      | succ k => exact .inr ⟨k, by omega, by rw [add_one_add_ofNat]; exact h⟩

theorem textBytes_eq_some {t : Text} {addr : Word} {n : Nat} {l : List Byte} :
    textBytes t addr n = some l ↔
      l.length = n ∧ ∀ k < n, lookupCell t (addr + BitVec.ofNat 64 k).toNat = l[k]? := by
  induction n generalizing addr l with
  | zero => cases l <;> simp [textBytes]
  | succ n ih =>
    simp only [textBytes]
    constructor
    · intro h
      split at h
      · simp at h
      · rename_i b hb
        obtain ⟨r, hr, rfl⟩ := Option.map_eq_some_iff.1 h
        obtain ⟨hl, hk⟩ := ih.1 hr
        refine ⟨by simp [hl], fun k hkn => ?_⟩
        cases k with
        | zero => simpa using hb
        | succ k =>
          rw [← add_one_add_ofNat, hk k (by omega)]
          simp
    · rintro ⟨hl, hk⟩
      cases l with
      | nil => simp at hl
      | cons b r =>
        have h0 := hk 0 (by omega)
        simp only [BitVec.add_zero, List.getElem?_cons_zero] at h0
        rw [h0]
        simp only [Option.map_eq_some_iff, List.cons.injEq, true_and, exists_eq_right]
        refine ih.2 ⟨by simpa using hl, fun k hkn => ?_⟩
        rw [add_one_add_ofNat, hk (k + 1) (by omega)]
        simp

theorem textBytes_eq_none {t : Text} {addr : Word} {n : Nat} :
    textBytes t addr n = none ↔ ∃ k < n, lookupCell t (addr + BitVec.ofNat 64 k).toNat = none := by
  induction n generalizing addr with
  | zero => simp [textBytes]
  | succ n ih =>
    simp only [textBytes]
    constructor
    · intro h
      split at h
      · rename_i hb
        exact ⟨0, by omega, by simpa using hb⟩
      · obtain ⟨k, hk, h⟩ := ih.1 (Option.map_eq_none_iff.1 h)
        exact ⟨k + 1, by omega, by rw [← add_one_add_ofNat]; exact h⟩
    · rintro ⟨k, hk, h⟩
      split
      · rfl
      · rename_i b hb
        refine Option.map_eq_none_iff.2 (ih.2 ?_)
        cases k with
        | zero => simp [hb] at h
        | succ k => exact ⟨k, by omega, by rw [add_one_add_ofNat]; exact h⟩

/-- The bytes put into the text at an address are what a fetch there reads; four bytes do not overlap themselves. -/
theorem lookupCell_putText_other (bytes : List Byte) {t : Text} {addr : Word} {a : Nat}
    (h : ∀ k < bytes.length, a ≠ (addr + BitVec.ofNat 64 k).toNat) :
    lookupCell (putText t addr bytes) a = lookupCell t a := by
  induction bytes generalizing t addr with
  | nil => rfl
  | cons b rest ih =>
    simp only [putText]
    rw [ih fun k hk => by rw [add_one_add_ofNat]; exact h (k + 1) (by simpa using hk)]
    exact lookupCell_insertCell_other b t (by simpa using h 0 (by simp))

theorem lookupCell_putText_at (bytes : List Byte) {t : Text} {addr : Word} (hl : bytes.length ≤ 2 ^ 64) {k : Nat}
    (hk : k < bytes.length) :
    lookupCell (putText t addr bytes) (addr + BitVec.ofNat 64 k).toNat = bytes[k]? := by
  induction bytes generalizing t addr k with
  | nil => simp at hk
  | cons b rest ih =>
    simp only [List.length_cons] at hl hk
    simp only [putText]
    cases k with
    | zero =>
      rw [lookupCell_putText_other rest fun j hj => by
        rw [add_one_add_ofNat]; exact add_ofNat_ne addr (by omega) (by omega) (by omega)]
      simp
    | succ k =>
      rw [← add_one_add_ofNat addr k, ih (by omega) (by omega)]
      simp

end Sys2Proof.Machine
end

