-- ==== Sys2Proof/Laws/Bits.lean ====
section
/-! SUPPORT. The lemmas of the bit primitives, of field extraction and of field placement: what each does, said once. -/

namespace Sys2Proof

theorem extractBits_toNat (v : Word) (start count : Nat) (inside : start + count ≤ 64) :
    (extractBits v start count inside).toNat = v.toNat / 2 ^ start % 2 ^ count := by
  simp [extractBits, BitVec.extractLsb'_toNat, Nat.shiftRight_eq_div_pow]

/-- The signed reading of the low bits: `sign_extend` is `toInt` of the field that ends at its sign bit. -/
theorem signExtend_eq_toInt (v : Word) (start : Fin 64) :
    signExtend v start = (v.extractLsb' 0 (start.val + 1)).toInt := by
  have hm : (v.extractLsb' 0 (start.val + 1)).msb = v.getLsbD start.val := by
    simp [BitVec.msb_eq_getLsbD_last]
  rw [BitVec.toInt_eq_msb_cond, hm]
  simp only [signExtend, getBit, extractBits]
  split <;> simp_all

theorem field_eq_extractLsb' (iw : InstrWord) (start count : Nat) (inside : start + count ≤ 64) :
    field iw start count inside = iw.extractLsb' start count := by
  ext j hj
  simp [field, extractBits, BitVec.getElem_extractLsb', BitVec.getLsbD_setWidth]
  omega

/-- Bit `j` of an assembled immediate's part. -/
theorem getLsbD_placeAt {n : Nat} (bits : BitVec n) (lo j : Nat) (hj : j < 64) :
    (placeAt bits lo).getLsbD j = (decide (lo ≤ j) && bits.getLsbD (j - lo)) := by
  simp [placeAt, hj]
  by_cases h : j < lo
  · simp [h, Nat.not_le.2 h]
  · simp [h, Nat.le_of_not_lt h]

/-- Bit `j` of a field put into an instruction word. -/
theorem getLsbD_put {n : Nat} (bits : BitVec n) (lo j : Nat) (hj : j < 32) :
    (put bits lo).getLsbD j = (decide (lo ≤ j) && bits.getLsbD (j - lo)) := by
  simp [put, hj]
  by_cases h : j < lo
  · simp [h, Nat.not_le.2 h]
  · simp [h, Nat.le_of_not_lt h]

/-- A field reads back from where it was put. -/
theorem extract_put_same {n : Nat} (bits : BitVec n) (lo : Nat) (fits : lo + n ≤ 32) :
    (put bits lo).extractLsb' lo n = bits := by
  ext j hj
  rw [BitVec.getElem_extractLsb', getLsbD_put _ _ _ (by omega)]
  simp [BitVec.getLsbD_eq_getElem hj]

/-- A field reads zero where another one was put. -/
theorem extract_put_apart {n : Nat} (bits : BitVec n) (lo start count : Nat)
    (apart : lo + n ≤ start ∨ start + count ≤ lo) :
    (put bits lo).extractLsb' start count = 0#count := by
  ext j hj
  rw [BitVec.getElem_extractLsb']
  by_cases h : start + j < 32
  · rw [getLsbD_put _ _ _ h]
    simp only [BitVec.getElem_zero, Bool.and_eq_false_iff, decide_eq_false_iff_not, Nat.not_le]
    rcases apart with h1 | h1
    · right; exact BitVec.getLsbD_of_ge _ _ (by omega)
    · left; omega
  · simp [BitVec.getLsbD_of_ge _ _ (Nat.le_of_not_lt h)]

@[simp] theorem toFin_regBits (r : Reg) : (regBits r).toFin = r := rfl

@[simp] theorem regBits_toFin (b : BitVec 5) : regBits b.toFin = b := rfl

/-! ### Each immediate is the signed reading of its pieces put side by side (30_encoding.md R80 to R83) -/

theorem immI_eq (iw : InstrWord) : immI iw = (iw.extractLsb' 20 12).toInt := by
  rw [immI, signExtend_eq_toInt, field_eq_extractLsb']
  have : (placeAt (iw.extractLsb' 20 12) 0).extractLsb' 0 (((11 : Fin 64) : Nat) + 1) = iw.extractLsb' 20 12 := by
    apply BitVec.eq_of_getLsbD_eq
    intro j hj
    change j < 12 at hj
    rw [BitVec.getLsbD_extractLsb', getLsbD_placeAt _ _ _ (by omega)]
    simp [hj]
  exact congrArg BitVec.toInt this

theorem immS_eq (iw : InstrWord) : immS iw = (iw.extractLsb' 25 7 ++ iw.extractLsb' 7 5).toInt := by
  rw [immS, signExtend_eq_toInt, field_eq_extractLsb', field_eq_extractLsb']
  have : (placeAt (iw.extractLsb' 25 7) 5 ||| placeAt (iw.extractLsb' 7 5) 0).extractLsb' 0 (((11 : Fin 64) : Nat) + 1)
      = iw.extractLsb' 25 7 ++ iw.extractLsb' 7 5 := by
    apply BitVec.eq_of_getLsbD_eq
    intro j hj
    change j < 12 at hj
    rw [BitVec.getLsbD_extractLsb', BitVec.getLsbD_or, getLsbD_placeAt _ _ _ (by omega),
      getLsbD_placeAt _ _ _ (by omega), BitVec.getLsbD_append]
    interval_cases j <;> simp
  exact congrArg BitVec.toInt this

theorem immB_eq (iw : InstrWord) :
    immB iw = (iw.extractLsb' 31 1 ++ iw.extractLsb' 7 1 ++ iw.extractLsb' 25 6 ++ iw.extractLsb' 8 4 ++ 0#1).toInt := by
  rw [immB, signExtend_eq_toInt]
  simp only [field_eq_extractLsb']
  have : (placeAt (iw.extractLsb' 31 1) 12 ||| placeAt (iw.extractLsb' 7 1) 11 ||| placeAt (iw.extractLsb' 25 6) 5 |||
      placeAt (iw.extractLsb' 8 4) 1).extractLsb' 0 (((12 : Fin 64) : Nat) + 1)
      = iw.extractLsb' 31 1 ++ iw.extractLsb' 7 1 ++ iw.extractLsb' 25 6 ++ iw.extractLsb' 8 4 ++ 0#1 := by
    apply BitVec.eq_of_getLsbD_eq
    intro j hj
    change j < 13 at hj
    rw [BitVec.getLsbD_extractLsb']
    simp only [BitVec.getLsbD_or, BitVec.getLsbD_append]
    rw [getLsbD_placeAt _ _ _ (by omega), getLsbD_placeAt _ _ _ (by omega), getLsbD_placeAt _ _ _ (by omega),
      getLsbD_placeAt _ _ _ (by omega)]
    interval_cases j <;> simp
  exact congrArg BitVec.toInt this

theorem immJ_eq (iw : InstrWord) :
    immJ iw = (iw.extractLsb' 31 1 ++ iw.extractLsb' 12 8 ++ iw.extractLsb' 20 1 ++ iw.extractLsb' 21 10 ++ 0#1).toInt := by
  rw [immJ, signExtend_eq_toInt]
  simp only [field_eq_extractLsb']
  have : (placeAt (iw.extractLsb' 31 1) 20 ||| placeAt (iw.extractLsb' 12 8) 12 ||| placeAt (iw.extractLsb' 20 1) 11 |||
      placeAt (iw.extractLsb' 21 10) 1).extractLsb' 0 (((20 : Fin 64) : Nat) + 1)
      = iw.extractLsb' 31 1 ++ iw.extractLsb' 12 8 ++ iw.extractLsb' 20 1 ++ iw.extractLsb' 21 10 ++ 0#1 := by
    apply BitVec.eq_of_getLsbD_eq
    intro j hj
    change j < 21 at hj
    rw [BitVec.getLsbD_extractLsb']
    simp only [BitVec.getLsbD_or, BitVec.getLsbD_append]
    rw [getLsbD_placeAt _ _ _ (by omega), getLsbD_placeAt _ _ _ (by omega), getLsbD_placeAt _ _ _ (by omega),
      getLsbD_placeAt _ _ _ (by omega)]
    interval_cases j <;> simp
  exact congrArg BitVec.toInt this

end Sys2Proof
end

