-- ==== Sys2Proof/Laws/Encode.lean ====
section
/-! SUPPORT. What the decoder's fields and immediates read from each encoder format. -/

namespace Sys2Proof

/-! ### R format -/

section R
variable (f7 : BitVec 7) (rs2 rs1 : BitVec 5) (f3 : BitVec 3) (rd : BitVec 5) (op : BitVec 7)

@[simp] theorem opcodeOf_encodeR : opcodeOf (encodeR f7 rs2 rs1 f3 rd op) = op := by
  simp [opcodeOf, encodeR, field_eq_extractLsb', BitVec.extractLsb'_or, extract_put_same, extract_put_apart]

@[simp] theorem funct3Of_encodeR : funct3Of (encodeR f7 rs2 rs1 f3 rd op) = f3 := by
  simp [funct3Of, encodeR, field_eq_extractLsb', BitVec.extractLsb'_or, extract_put_same, extract_put_apart]

@[simp] theorem funct7Of_encodeR : funct7Of (encodeR f7 rs2 rs1 f3 rd op) = f7 := by
  simp [funct7Of, encodeR, field_eq_extractLsb', BitVec.extractLsb'_or, extract_put_same, extract_put_apart]

@[simp] theorem rdOf_encodeR : rdOf (encodeR f7 rs2 rs1 f3 rd op) = rd.toFin := by
  rw [rdOf, field_eq_extractLsb']; congr 1
  simp [encodeR, BitVec.extractLsb'_or, extract_put_same, extract_put_apart]

@[simp] theorem rs1Of_encodeR : rs1Of (encodeR f7 rs2 rs1 f3 rd op) = rs1.toFin := by
  rw [rs1Of, field_eq_extractLsb']; congr 1
  simp [encodeR, BitVec.extractLsb'_or, extract_put_same, extract_put_apart]

@[simp] theorem rs2Of_encodeR : rs2Of (encodeR f7 rs2 rs1 f3 rd op) = rs2.toFin := by
  rw [rs2Of, field_eq_extractLsb']; congr 1
  simp [encodeR, BitVec.extractLsb'_or, extract_put_same, extract_put_apart]

@[simp] theorem shamtOf_encodeR : shamtOf (encodeR f7 rs2 rs1 f3 rd op) = rs2 := by
  simp [shamtOf, encodeR, field_eq_extractLsb', BitVec.extractLsb'_or, extract_put_same, extract_put_apart]

end R

/-! ### I format -/

section I
variable (imm : BitVec 12) (rs1 : BitVec 5) (f3 : BitVec 3) (rd : BitVec 5) (op : BitVec 7)

@[simp] theorem opcodeOf_encodeI : opcodeOf (encodeI imm rs1 f3 rd op) = op := by
  simp [opcodeOf, encodeI, field_eq_extractLsb', BitVec.extractLsb'_or, extract_put_same, extract_put_apart]

@[simp] theorem funct3Of_encodeI : funct3Of (encodeI imm rs1 f3 rd op) = f3 := by
  simp [funct3Of, encodeI, field_eq_extractLsb', BitVec.extractLsb'_or, extract_put_same, extract_put_apart]

@[simp] theorem rdOf_encodeI : rdOf (encodeI imm rs1 f3 rd op) = rd.toFin := by
  rw [rdOf, field_eq_extractLsb']; congr 1
  simp [encodeI, BitVec.extractLsb'_or, extract_put_same, extract_put_apart]

@[simp] theorem rs1Of_encodeI : rs1Of (encodeI imm rs1 f3 rd op) = rs1.toFin := by
  rw [rs1Of, field_eq_extractLsb']; congr 1
  simp [encodeI, BitVec.extractLsb'_or, extract_put_same, extract_put_apart]

@[simp] theorem immI_encodeI : immI (encodeI imm rs1 f3 rd op) = imm.toInt := by
  rw [immI_eq]; congr 1
  simp [encodeI, BitVec.extractLsb'_or, extract_put_same, extract_put_apart]

end I

/-! ### S format -/

section S
variable (u : BitVec 12) (rs2 rs1 : BitVec 5) (f3 : BitVec 3) (op : BitVec 7)

@[simp] theorem opcodeOf_encodeS : opcodeOf (encodeS u rs2 rs1 f3 op) = op := by
  simp [opcodeOf, encodeS, field_eq_extractLsb', BitVec.extractLsb'_or, extract_put_same, extract_put_apart]

@[simp] theorem funct3Of_encodeS : funct3Of (encodeS u rs2 rs1 f3 op) = f3 := by
  simp [funct3Of, encodeS, field_eq_extractLsb', BitVec.extractLsb'_or, extract_put_same, extract_put_apart]

@[simp] theorem rs1Of_encodeS : rs1Of (encodeS u rs2 rs1 f3 op) = rs1.toFin := by
  rw [rs1Of, field_eq_extractLsb']; congr 1
  simp [encodeS, BitVec.extractLsb'_or, extract_put_same, extract_put_apart]

@[simp] theorem rs2Of_encodeS : rs2Of (encodeS u rs2 rs1 f3 op) = rs2.toFin := by
  rw [rs2Of, field_eq_extractLsb']; congr 1
  simp [encodeS, BitVec.extractLsb'_or, extract_put_same, extract_put_apart]

@[simp] theorem immS_encodeS : immS (encodeS u rs2 rs1 f3 op) = u.toInt := by
  have h1 : (encodeS u rs2 rs1 f3 op).extractLsb' 25 7 = u.extractLsb' 5 7 := by
    simp [encodeS, BitVec.extractLsb'_or, extract_put_same, extract_put_apart]
  have h2 : (encodeS u rs2 rs1 f3 op).extractLsb' 7 5 = u.extractLsb' 0 5 := by
    simp [encodeS, BitVec.extractLsb'_or, extract_put_same, extract_put_apart]
  rw [immS_eq, h1, h2]; congr 1
  apply BitVec.eq_of_getLsbD_eq
  intro j hj
  rw [BitVec.getLsbD_append]
  interval_cases j <;> simp

end S

/-! ### B format -/

section B
variable (u : BitVec 13) (rs2 rs1 : BitVec 5) (f3 : BitVec 3) (op : BitVec 7)

@[simp] theorem opcodeOf_encodeB : opcodeOf (encodeB u rs2 rs1 f3 op) = op := by
  simp [opcodeOf, encodeB, field_eq_extractLsb', BitVec.extractLsb'_or, extract_put_same, extract_put_apart]

@[simp] theorem funct3Of_encodeB : funct3Of (encodeB u rs2 rs1 f3 op) = f3 := by
  simp [funct3Of, encodeB, field_eq_extractLsb', BitVec.extractLsb'_or, extract_put_same, extract_put_apart]

@[simp] theorem rs1Of_encodeB : rs1Of (encodeB u rs2 rs1 f3 op) = rs1.toFin := by
  rw [rs1Of, field_eq_extractLsb']; congr 1
  simp [encodeB, BitVec.extractLsb'_or, extract_put_same, extract_put_apart]

@[simp] theorem rs2Of_encodeB : rs2Of (encodeB u rs2 rs1 f3 op) = rs2.toFin := by
  rw [rs2Of, field_eq_extractLsb']; congr 1
  simp [encodeB, BitVec.extractLsb'_or, extract_put_same, extract_put_apart]

/-- The B displacement reads back when its implicit bit 0 is 0. -/
theorem immB_encodeB (even : u.getLsbD 0 = false) : immB (encodeB u rs2 rs1 f3 op) = u.toInt := by
  have h1 : (encodeB u rs2 rs1 f3 op).extractLsb' 31 1 = u.extractLsb' 12 1 := by
    simp [encodeB, BitVec.extractLsb'_or, extract_put_same, extract_put_apart]
  have h2 : (encodeB u rs2 rs1 f3 op).extractLsb' 7 1 = u.extractLsb' 11 1 := by
    simp [encodeB, BitVec.extractLsb'_or, extract_put_same, extract_put_apart]
  have h3 : (encodeB u rs2 rs1 f3 op).extractLsb' 25 6 = u.extractLsb' 5 6 := by
    simp [encodeB, BitVec.extractLsb'_or, extract_put_same, extract_put_apart]
  have h4 : (encodeB u rs2 rs1 f3 op).extractLsb' 8 4 = u.extractLsb' 1 4 := by
    simp [encodeB, BitVec.extractLsb'_or, extract_put_same, extract_put_apart]
  rw [immB_eq, h1, h2, h3, h4]; congr 1
  apply BitVec.eq_of_getLsbD_eq
  intro j hj
  simp only [BitVec.getLsbD_append]
  interval_cases j <;> simp_all

end B

/-! ### J format -/

section J
variable (u : BitVec 21) (rd : BitVec 5) (op : BitVec 7)

@[simp] theorem opcodeOf_encodeJ : opcodeOf (encodeJ u rd op) = op := by
  simp [opcodeOf, encodeJ, field_eq_extractLsb', BitVec.extractLsb'_or, extract_put_same, extract_put_apart]

@[simp] theorem rdOf_encodeJ : rdOf (encodeJ u rd op) = rd.toFin := by
  rw [rdOf, field_eq_extractLsb']; congr 1
  simp [encodeJ, BitVec.extractLsb'_or, extract_put_same, extract_put_apart]

/-- The J displacement reads back when its implicit bit 0 is 0. -/
theorem immJ_encodeJ (even : u.getLsbD 0 = false) : immJ (encodeJ u rd op) = u.toInt := by
  have h1 : (encodeJ u rd op).extractLsb' 31 1 = u.extractLsb' 20 1 := by
    simp [encodeJ, BitVec.extractLsb'_or, extract_put_same, extract_put_apart]
  have h2 : (encodeJ u rd op).extractLsb' 12 8 = u.extractLsb' 12 8 := by
    simp [encodeJ, BitVec.extractLsb'_or, extract_put_same, extract_put_apart]
  have h3 : (encodeJ u rd op).extractLsb' 20 1 = u.extractLsb' 11 1 := by
    simp [encodeJ, BitVec.extractLsb'_or, extract_put_same, extract_put_apart]
  have h4 : (encodeJ u rd op).extractLsb' 21 10 = u.extractLsb' 1 10 := by
    simp [encodeJ, BitVec.extractLsb'_or, extract_put_same, extract_put_apart]
  rw [immJ_eq, h1, h2, h3, h4]; congr 1
  apply BitVec.eq_of_getLsbD_eq
  intro j hj
  simp only [BitVec.getLsbD_append]
  interval_cases j <;> simp_all

end J

/-! ### Numbers in range survive their field -/

theorem toInt_ofInt_of_fits12 {v : Int} (h : immFits12 v = true) : (BitVec.ofInt 12 v).toInt = v := by
  simp only [immFits12, Bool.and_eq_true, decide_eq_true_eq] at h
  rw [BitVec.toInt_ofInt, Int.bmod_def]; omega

theorem toInt_ofInt_of_fitsB {v : Int} (h : immFitsB v = true) : (BitVec.ofInt 13 v).toInt = v := by
  simp only [immFitsB, Bool.and_eq_true, decide_eq_true_eq] at h
  rw [BitVec.toInt_ofInt, Int.bmod_def]; omega

theorem toInt_ofInt_of_fitsJ {v : Int} (h : immFitsJ v = true) : (BitVec.ofInt 21 v).toInt = v := by
  simp only [immFitsJ, Bool.and_eq_true, decide_eq_true_eq] at h
  rw [BitVec.toInt_ofInt, Int.bmod_def]; omega

/-- An even number has bit 0 clear in every field. -/
theorem getLsbD_zero_of_even {n : Nat} {v : Int} (h : v % 2 = 0) : (BitVec.ofInt (n + 1) v).getLsbD 0 = false := by
  have hp : ((2 ^ (n + 1) : Nat) : Int) = 2 * 2 ^ n := by push_cast; ring
  have h0 : (v % ((2 ^ (n + 1) : Nat) : Int)).toNat % 2 = 0 := by
    have hn : 0 ≤ v % ((2 ^ (n + 1) : Nat) : Int) := Int.emod_nonneg _ (by positivity)
    have : v % ((2 ^ (n + 1) : Nat) : Int) % 2 = 0 := by
      rw [hp, Int.emod_emod_of_dvd v (Dvd.intro _ rfl)]; exact h
    omega
  simp only [BitVec.getLsbD, BitVec.toNat_ofInt, Nat.testBit_zero]
  simpa using h0

end Sys2Proof
end

