-- ==== Sys2Proof/Laws/State.lean ====
section
/-! SUPPORT. One lemma per field and named update of State, so that no later proof unfolds a record update. -/

namespace Sys2Proof.Machine

/-! ### writeReg -/

@[simp] theorem writeReg_pc (s : State) (r : Reg) (v : Word) : (s.writeReg r v).pc = s.pc := by
  unfold State.writeReg; split <;> rfl

@[simp] theorem writeReg_mem (s : State) (r : Reg) (v : Word) : (s.writeReg r v).mem = s.mem := by
  unfold State.writeReg; split <;> rfl

@[simp] theorem writeReg_imem (s : State) (r : Reg) (v : Word) : (s.writeReg r v).imem = s.imem := by
  unfold State.writeReg; split <;> rfl

@[simp] theorem writeReg_ctr (s : State) (r : Reg) (v : Word) : (s.writeReg r v).ctr = s.ctr := by
  unfold State.writeReg; split <;> rfl

@[simp] theorem writeReg_instrEn (s : State) (r : Reg) (v : Word) : (s.writeReg r v).instrEn = s.instrEn := by
  unfold State.writeReg; split <;> rfl

@[simp] theorem writeReg_fatal (s : State) (r : Reg) (v : Word) : (s.writeReg r v).fatal = s.fatal := by
  unfold State.writeReg; split <;> rfl

@[simp] theorem writeReg_platform (s : State) (r : Reg) (v : Word) : (s.writeReg r v).platform = s.platform := by
  unfold State.writeReg; split <;> rfl

/-- A write of register 0 changes nothing (10_state.md R21). -/
@[simp] theorem writeReg_zero (s : State) (v : Word) : s.writeReg 0 v = s := rfl

@[simp] theorem readReg_zero (s : State) : s.readReg 0 = 0#64 := rfl

theorem readReg_eq_of_regs_eq {s t : State} (h : t.regs = s.regs) (r : Reg) : t.readReg r = s.readReg r := by
  unfold State.readReg; rw [h]

theorem readReg_writeReg_same (s : State) {r : Reg} (v : Word) (h : r ≠ 0) : (s.writeReg r v).readReg r = v := by
  simp [State.readReg, State.writeReg, h]

theorem readReg_writeReg_other (s : State) {r r' : Reg} (v : Word) (h : r' ≠ r) :
    (s.writeReg r v).readReg r' = s.readReg r' := by
  have hne : r.val ≠ r'.val := fun e => h (Fin.ext e.symm)
  unfold State.readReg State.writeReg
  split
  · rfl
  · split
    · rfl
    · simp [Vector.getElem_set_ne, hne]

/-- Slot 0 of the register file is never written. -/
@[simp] theorem writeReg_slot_zero (s : State) (r : Reg) (v : Word) : (s.writeReg r v).regs[0] = s.regs[0] := by
  unfold State.writeReg
  split
  · rfl
  · rename_i h
    have hne : r.val ≠ 0 := fun e => h (Fin.ext e)
    simp [Vector.getElem_set_ne, hne]

/-! ### setPc -/

@[simp] theorem setPc_regs (s : State) (target : Word) : (s.setPc target).regs = s.regs := rfl

@[simp] theorem setPc_pc (s : State) (target : Word) : (s.setPc target).pc = target := rfl

@[simp] theorem setPc_mem (s : State) (target : Word) : (s.setPc target).mem = s.mem := rfl

@[simp] theorem setPc_imem (s : State) (target : Word) : (s.setPc target).imem = s.imem := rfl

@[simp] theorem setPc_ctr (s : State) (target : Word) : (s.setPc target).ctr = s.ctr := rfl

@[simp] theorem setPc_instrEn (s : State) (target : Word) : (s.setPc target).instrEn = s.instrEn := rfl

@[simp] theorem setPc_fatal (s : State) (target : Word) : (s.setPc target).fatal = s.fatal := rfl

@[simp] theorem setPc_platform (s : State) (target : Word) : (s.setPc target).platform = s.platform := rfl

/-! ### count and retire -/

@[simp] theorem count_regs (s : State) (c : CounterName) : (s.count c).regs = s.regs := by
  unfold State.count; split <;> rfl

@[simp] theorem count_pc (s : State) (c : CounterName) : (s.count c).pc = s.pc := by
  unfold State.count; split <;> rfl

@[simp] theorem count_mem (s : State) (c : CounterName) : (s.count c).mem = s.mem := by
  unfold State.count; split <;> rfl

@[simp] theorem count_imem (s : State) (c : CounterName) : (s.count c).imem = s.imem := by
  unfold State.count; split <;> rfl

@[simp] theorem count_instrEn (s : State) (c : CounterName) : (s.count c).instrEn = s.instrEn := by
  unfold State.count; split <;> rfl

@[simp] theorem count_fatal (s : State) (c : CounterName) : (s.count c).fatal = s.fatal := by
  unfold State.count; split <;> rfl

@[simp] theorem count_platform (s : State) (c : CounterName) : (s.count c).platform = s.platform := by
  unfold State.count; split <;> rfl

@[simp] theorem count_ctr (s : State) (c : CounterName) :
    (s.count c).ctr = if s.instrEn then s.ctr.bump c else s.ctr := by
  unfold State.count; split <;> rfl

@[simp] theorem retire_regs (s : State) (c : CounterName) : (s.retire c).regs = s.regs := by
  simp [State.retire]

@[simp] theorem retire_pc (s : State) (c : CounterName) : (s.retire c).pc = s.pc := by
  simp [State.retire]

@[simp] theorem retire_mem (s : State) (c : CounterName) : (s.retire c).mem = s.mem := by
  simp [State.retire]

@[simp] theorem retire_imem (s : State) (c : CounterName) : (s.retire c).imem = s.imem := by
  simp [State.retire]

@[simp] theorem retire_instrEn (s : State) (c : CounterName) : (s.retire c).instrEn = s.instrEn := by
  simp [State.retire]

@[simp] theorem retire_fatal (s : State) (c : CounterName) : (s.retire c).fatal = s.fatal := by
  simp [State.retire]

@[simp] theorem retire_platform (s : State) (c : CounterName) : (s.retire c).platform = s.platform := by
  simp [State.retire]

@[simp] theorem retire_ctr (s : State) (c : CounterName) :
    (s.retire c).ctr = if s.instrEn then (s.ctr.bump .total).bump c else s.ctr := by
  simp only [State.retire, count_ctr, count_instrEn]
  split <;> rfl

/-! ### raiseFatal -/

@[simp] theorem raiseFatal_regs (s : State) (u : Unsupported) (iw : InstrWord) :
    (s.raiseFatal u iw).regs = s.regs := rfl

@[simp] theorem raiseFatal_pc (s : State) (u : Unsupported) (iw : InstrWord) :
    (s.raiseFatal u iw).pc = s.pc := rfl

@[simp] theorem raiseFatal_mem (s : State) (u : Unsupported) (iw : InstrWord) :
    (s.raiseFatal u iw).mem = s.mem := rfl

@[simp] theorem raiseFatal_imem (s : State) (u : Unsupported) (iw : InstrWord) :
    (s.raiseFatal u iw).imem = s.imem := rfl

@[simp] theorem raiseFatal_ctr (s : State) (u : Unsupported) (iw : InstrWord) :
    (s.raiseFatal u iw).ctr = s.ctr := rfl

@[simp] theorem raiseFatal_instrEn (s : State) (u : Unsupported) (iw : InstrWord) :
    (s.raiseFatal u iw).instrEn = s.instrEn := rfl

@[simp] theorem raiseFatal_fatal (s : State) (u : Unsupported) (iw : InstrWord) :
    (s.raiseFatal u iw).fatal = some ⟨u.category, u.field, iw, s.pc⟩ := rfl

@[simp] theorem raiseFatal_platform (s : State) (u : Unsupported) (iw : InstrWord) :
    (s.raiseFatal u iw).platform = s.platform := rfl

/-! ### Reads through an update that leaves what they read alone -/

@[simp] theorem readReg_setPc (s : State) (target : Word) (r : Reg) :
    (s.setPc target).readReg r = s.readReg r := readReg_eq_of_regs_eq (by simp) r

@[simp] theorem readReg_count (s : State) (c : CounterName) (r : Reg) :
    (s.count c).readReg r = s.readReg r := readReg_eq_of_regs_eq (by simp) r

@[simp] theorem readReg_retire (s : State) (c : CounterName) (r : Reg) :
    (s.retire c).readReg r = s.readReg r := readReg_eq_of_regs_eq (by simp) r

@[simp] theorem readReg_raiseFatal (s : State) (u : Unsupported) (iw : InstrWord) (r : Reg) :
    (s.raiseFatal u iw).readReg r = s.readReg r := readReg_eq_of_regs_eq (by simp) r

theorem readByte_eq_of_mem_eq {s t : State} (hm : t.mem = s.mem) (hp : t.platform = s.platform) (a : Nat) :
    t.readByte a = s.readByte a := by
  unfold State.readByte; rw [hm, hp]

@[simp] theorem readByte_writeReg (s : State) (r : Reg) (v : Word) (a : Nat) :
    (s.writeReg r v).readByte a = s.readByte a := readByte_eq_of_mem_eq (by simp) (by simp) a

@[simp] theorem readByte_setPc (s : State) (target : Word) (a : Nat) :
    (s.setPc target).readByte a = s.readByte a := readByte_eq_of_mem_eq (by simp) (by simp) a

@[simp] theorem readByte_count (s : State) (c : CounterName) (a : Nat) :
    (s.count c).readByte a = s.readByte a := readByte_eq_of_mem_eq (by simp) (by simp) a

@[simp] theorem readByte_retire (s : State) (c : CounterName) (a : Nat) :
    (s.retire c).readByte a = s.readByte a := readByte_eq_of_mem_eq (by simp) (by simp) a

@[simp] theorem readByte_raiseFatal (s : State) (u : Unsupported) (iw : InstrWord) (a : Nat) :
    (s.raiseFatal u iw).readByte a = s.readByte a := readByte_eq_of_mem_eq (by simp) (by simp) a

end Sys2Proof.Machine
end

