-- ==== Sys2Proof/Laws/Ops.lean ====
section
/-! SUPPORT. One lemma per shared operation: everything it can answer, said once. -/

namespace Sys2Proof.Machine

/-! ### Load and store -/

/-- A load answers a value exactly when all its bytes are defined, and then the value of those bytes. -/
theorem load_ok {s : State} {addr : Word} {w : Width} {v : Word} :
    s.load addr w = .ok v ↔
      ∃ bytes, Memory.readBytes s.platform s.mem addr w.bytes = some bytes ∧ v = BitVec.ofNat 64 (leValue bytes) := by
  unfold State.load
  split
  · rename_i h; simp [h]
  · rename_i bytes h; simp [h, eq_comm]

/-- A load's only fault is MemUndefined at its own address and width, when some byte is undefined. -/
theorem load_error {s : State} {addr : Word} {w : Width} {f : Fault} :
    s.load addr w = .error f ↔
      f = .memUndefined addr w.bytes ∧ Memory.readBytes s.platform s.mem addr w.bytes = none := by
  unfold State.load
  split
  · rename_i h; simp [h, eq_comm]
  · rename_i bytes h; simp [h]

/-- A store answers a state exactly when all its bytes are defined and none is text; it changes memory alone. -/
theorem store_ok {s t : State} {addr : Word} {w : Width} {v : Word} :
    s.store addr w v = .ok t ↔
      Memory.readBytes s.platform s.mem addr w.bytes ≠ none ∧ hitsText s.imem addr w.bytes = false ∧
        t = { s with mem := Memory.writeBytes s.platform s.mem addr (leBytes w.bytes v.toNat) } := by
  unfold State.store
  split
  · rename_i h; simp [h]
  · rename_i bytes h
    split
    · rename_i ht; simp [ht]
    · rename_i ht; simp [h, ht, eq_comm]

/-- A store's two faults: MemUndefined first, then StoreToText, both at its own address. -/
theorem store_error {s : State} {addr : Word} {w : Width} {v : Word} {f : Fault} :
    s.store addr w v = .error f ↔
      (f = .memUndefined addr w.bytes ∧ Memory.readBytes s.platform s.mem addr w.bytes = none) ∨
      (f = .storeToText addr ∧ Memory.readBytes s.platform s.mem addr w.bytes ≠ none ∧
        hitsText s.imem addr w.bytes = true) := by
  unfold State.store
  split
  · rename_i h
    constructor
    · intro e; cases e; exact .inl ⟨rfl, h⟩
    · rintro (⟨rfl, -⟩ | ⟨-, hn, -⟩)
      · rfl
      · exact absurd h hn
  · rename_i bytes h
    split
    · rename_i ht
      constructor
      · intro e; cases e; exact .inr ⟨rfl, by simp [h], ht⟩
      · rintro (⟨-, hn⟩ | ⟨rfl, -, -⟩)
        · simp [h] at hn
        · rfl
    · rename_i ht; simp [h, ht]

/-- A store keeps memory in its canonical form. -/
theorem store_keeps_wf {s t : State} {addr : Word} {w : Width} {v : Word} (h : s.store addr w v = .ok t)
    (hw : Memory.wf s.platform s.mem = true) : Memory.wf t.platform t.mem = true := by
  obtain ⟨-, -, rfl⟩ := store_ok.1 h
  exact Memory.writeBytes_wf _ _ hw

/-! ### The common bodies: what they answer -/

theorem aluRegReg_eq (op : Word → Word → Word) (rd rs1 rs2 : Reg) (s : State) :
    aluRegReg op rd rs1 rs2 s =
      .next (((s.writeReg rd (op (s.readReg rs1) (s.readReg rs2))).retire .alu).setPc (s.pc + 4#64)) := by
  simp [aluRegReg, State.finishWrite, State.finishSequential, State.nextPc]

theorem aluReg_eq (op : Word → Word) (rd rs1 : Reg) (s : State) :
    aluReg op rd rs1 s = .next (((s.writeReg rd (op (s.readReg rs1))).retire .alu).setPc (s.pc + 4#64)) := by
  simp [aluReg, State.finishWrite, State.finishSequential, State.nextPc]

theorem loadFrom_next {w : Width} {rd rs1 : Reg} {imm : Int} {s t : State} :
    loadFrom w rd rs1 imm s = .next t ↔
      ∃ v, s.load (s.effectiveAddress rs1 imm) w = .ok v ∧
        t = ((s.writeReg rd v).retire .load).setPc (s.pc + 4#64) := by
  unfold loadFrom
  split
  · rename_i f h; simp [h]
  · rename_i v h; simp [h, State.finishWrite, State.finishSequential, State.nextPc, eq_comm]

theorem loadFrom_fault {w : Width} {rd rs1 : Reg} {imm : Int} {s : State} {f : Fault} :
    loadFrom w rd rs1 imm s = .fault f ↔ s.load (s.effectiveAddress rs1 imm) w = .error f := by
  unfold loadFrom
  split
  · rename_i f h; simp [h]
  · rename_i v h; simp [h, State.finishWrite, State.finishSequential]

theorem storeTo_next {w : Width} {rs1 rs2 : Reg} {imm : Int} {s t : State} :
    storeTo w rs1 rs2 imm s = .next t ↔
      ∃ u, s.store (s.effectiveAddress rs1 imm) w (s.readReg rs2) = .ok u ∧
        t = (u.retire .store).setPc (s.pc + 4#64) := by
  unfold storeTo
  split
  · rename_i f h; simp [h]
  · rename_i u h
    have hp : u.pc = s.pc := by obtain ⟨-, -, rfl⟩ := store_ok.1 h; rfl
    simp [h, State.finishSequential, State.nextPc, hp, eq_comm]

theorem storeTo_fault {w : Width} {rs1 rs2 : Reg} {imm : Int} {s : State} {f : Fault} :
    storeTo w rs1 rs2 imm s = .fault f ↔ s.store (s.effectiveAddress rs1 imm) w (s.readReg rs2) = .error f := by
  unfold storeTo
  split
  · rename_i f h; simp [h]
  · rename_i v h; simp [h, State.finishSequential]

theorem branchIf_eq (cond : Word → Word → Bool) (rs1 rs2 : Reg) (imm : Int) (s : State) :
    branchIf cond rs1 rs2 imm s =
      if cond (s.readReg rs1) (s.readReg rs2) then .next ((s.retire .brTaken).setPc (s.pc + BitVec.ofInt 64 imm))
      else .next ((s.retire .brNotTaken).setPc (s.pc + 4#64)) := rfl

theorem execJalr_eq (rs1 : Reg) (s : State) :
    execJalr rs1 s = .next ((s.retire .jump).setPc (s.readReg rs1)) := rfl

theorem execJal_eq (rd : Reg) (imm : Int) (s : State) :
    execJal rd imm s =
      .next (((s.writeReg rd (s.pc + 4#64)).retire .jump).setPc (s.pc + BitVec.ofInt 64 imm)) := rfl

/-! ### Fetch -/

/-- A fetch answers a word exactly when its four bytes are in the text, the lowest address in the low bits. -/
theorem fetchWord_eq_some {t : Text} {a : Word} {iw : InstrWord} :
    fetchWord t a = some iw ↔ ∃ l, textBytes t a 4 = some l ∧ wordOfBytes l = iw := by
  simp [fetchWord, Option.map_eq_some_iff]

theorem fetchWord_eq_none {t : Text} {a : Word} :
    fetchWord t a = none ↔ ∃ k < 4, lookupCell t (a + BitVec.ofNat 64 k).toNat = none := by
  simp only [fetchWord, Option.map_eq_none_iff, textBytes_eq_none]

/-- The bytes put where the pc points are what the fetch there reads. -/
theorem fetchWord_putText (t : Text) (a : Word) (bytes : List Byte) (h : bytes.length = 4) :
    fetchWord (putText t a bytes) a = some (wordOfBytes bytes) :=
  fetchWord_eq_some.2 ⟨bytes, textBytes_eq_some.2 ⟨h, fun _ hk =>
    lookupCell_putText_at bytes (by omega) (by omega)⟩, rfl⟩

/-! ### What a step can be -/

/-- Every step that answers a next state was taken by a running block and ran the decoded instruction or latched the
unsupported word. -/
theorem step_next {s t : State} (h : step s = .next t) :
    s.fatal = none ∧ s.pc ≠ s.platform.stopPc ∧ ∃ iw, fetchWord s.imem s.pc = some iw ∧
      ((∃ i, decodeWord iw = .ok i ∧ exec i s = .next t) ∨
        (∃ u, decodeWord iw = .error u ∧ t = s.raiseFatal u iw)) := by
  unfold step at h
  split at h
  · simp at h
  · rename_i hf
    split at h
    · simp at h
    · rename_i hp
      split at h
      · simp at h
      · rename_i iw hw
        split at h
        · rename_i i hd
          exact ⟨hf, hp, iw, hw, .inl ⟨i, hd, h⟩⟩
        · rename_i u hd
          exact ⟨hf, hp, iw, hw, .inr ⟨u, hd, by simpa [eq_comm] using h⟩⟩

end Sys2Proof.Machine
end

