-- ==== Sys2Proof/Laws/Launch.lean ====
section
/-! SUPPORT. What the launch premises of 70_reset_and_hazards.md R232 say, each said once, and what they and a run that
halts exclude. -/

namespace Sys2Proof.Machine

theorem entryFetchable_iff {inp : ResetInputs} :
    entryFetchable inp = true ↔ inp.entry = inp.platform.stopPc ∨ ∃ iw, fetchWord inp.imem inp.entry = some iw := by
  simp [entryFetchable, Option.isSome_iff_exists]

theorem launchPremises_iff {inp : ResetInputs} :
    launchPremises inp = true ↔ platformFits inp.platform = true ∧ risingCells inp.imem = true ∧
      entryFetchable inp = true ∧ textApart inp.imem inp.platform = true := by
  simp [launchPremises, and_assoc]

/-- With ENTRY's word in the text, the block is halted at reset or its first step has the word to decode. -/
theorem entryFetchable_first_step {inp : ResetInputs} (h : entryFetchable inp = true) :
    (State.resetWith inp).status = .halted ∨
      ((State.resetWith inp).status = .running ∧
        ∃ iw, fetchWord (State.resetWith inp).imem (State.resetWith inp).pc = some iw) := by
  by_cases hs : inp.entry = inp.platform.stopPc
  · left; simp [State.status, State.resetWith, hs]
  · right
    exact ⟨by simp [State.status, State.resetWith, hs], (entryFetchable_iff.1 h).resolve_left hs⟩

/-- With one step more, a run halts exactly when the block is halted now or its next state's run halts. -/
theorem haltsWithin_succ {fuel : Nat} {s : State} :
    haltsWithin (fuel + 1) s ↔ step s = .fault .halted ∨ ∃ t, step s = .next t ∧ haltsWithin fuel t := by
  simp only [haltsWithin, run]
  cases step s with
  | next t => simp
  | refused r => simp
  | fault f => cases f <;> simp [endOf]

end Sys2Proof.Machine
end

