-- ==== Sys2Proof/Laws/PerInstr.lean ====
section
/-! SUPPORT. Statements made instruction by instruction.  TableRow: the encoder puts every instruction, whatever its
operands, into its own row of the opcode map (30_encoding.md R92 to R98). -/

namespace Sys2Proof

/-! ### What a row's mask keeps of each format -/

theorem encodeR_masked (f7 : BitVec 7) (rs2 rs1 : BitVec 5) (f3 : BitVec 3) (rd : BitVec 5) (op : BitVec 7) :
    encodeR f7 rs2 rs1 f3 rd op &&& 0xFE00707F#32 = put f7 25 ||| put f3 12 ||| put op 0 := by
  apply BitVec.eq_of_getLsbD_eq
  intro j hj
  simp only [encodeR, BitVec.getLsbD_and, BitVec.getLsbD_or]
  repeat rw [getLsbD_put _ _ _ hj]
  interval_cases j <;> simp

theorem encodeI_masked (imm : BitVec 12) (rs1 : BitVec 5) (f3 : BitVec 3) (rd : BitVec 5) (op : BitVec 7) :
    encodeI imm rs1 f3 rd op &&& 0x0000707F#32 = put f3 12 ||| put op 0 := by
  apply BitVec.eq_of_getLsbD_eq
  intro j hj
  simp only [encodeI, BitVec.getLsbD_and, BitVec.getLsbD_or]
  repeat rw [getLsbD_put _ _ _ hj]
  interval_cases j <;> simp

theorem encodeI_opcode (imm : BitVec 12) (rs1 : BitVec 5) (f3 : BitVec 3) (rd : BitVec 5) (op : BitVec 7) :
    encodeI imm rs1 f3 rd op &&& 0x0000007F#32 = put op 0 := by
  apply BitVec.eq_of_getLsbD_eq
  intro j hj
  simp only [encodeI, BitVec.getLsbD_and, BitVec.getLsbD_or]
  repeat rw [getLsbD_put _ _ _ hj]
  interval_cases j <;> simp

theorem encodeS_masked (u : BitVec 12) (rs2 rs1 : BitVec 5) (f3 : BitVec 3) (op : BitVec 7) :
    encodeS u rs2 rs1 f3 op &&& 0x0000707F#32 = put f3 12 ||| put op 0 := by
  apply BitVec.eq_of_getLsbD_eq
  intro j hj
  simp only [encodeS, BitVec.getLsbD_and, BitVec.getLsbD_or]
  repeat rw [getLsbD_put _ _ _ hj]
  interval_cases j <;> simp

theorem encodeB_masked (u : BitVec 13) (rs2 rs1 : BitVec 5) (f3 : BitVec 3) (op : BitVec 7) :
    encodeB u rs2 rs1 f3 op &&& 0x0000707F#32 = put f3 12 ||| put op 0 := by
  apply BitVec.eq_of_getLsbD_eq
  intro j hj
  simp only [encodeB, BitVec.getLsbD_and, BitVec.getLsbD_or]
  repeat rw [getLsbD_put _ _ _ hj]
  interval_cases j <;> simp

theorem encodeJ_opcode (u : BitVec 21) (rd : BitVec 5) (op : BitVec 7) :
    encodeJ u rd op &&& 0x0000007F#32 = put op 0 := by
  apply BitVec.eq_of_getLsbD_eq
  intro j hj
  simp only [encodeJ, BitVec.getLsbD_and, BitVec.getLsbD_or]
  repeat rw [getLsbD_put _ _ _ hj]
  interval_cases j <;> simp

end Sys2Proof

namespace Sys2Proof.Laws.TableRow

/-- The instruction's word matches the value of its row under the row's mask. -/
def Statement (i : Instr) : Prop := encode i &&& i.row.mask = i.row.value

theorem add (rd rs1 rs2 : Reg) : Statement (.add rd rs1 rs2) :=
  (encodeR_masked _ _ _ _ _ _).trans rfl

theorem mul (rd rs1 rs2 : Reg) : Statement (.mul rd rs1 rs2) :=
  (encodeR_masked _ _ _ _ _ _).trans rfl

theorem sub (rd rs1 rs2 : Reg) : Statement (.sub rd rs1 rs2) :=
  (encodeR_masked _ _ _ _ _ _).trans rfl

theorem sll (rd rs1 rs2 : Reg) : Statement (.sll rd rs1 rs2) :=
  (encodeR_masked _ _ _ _ _ _).trans rfl

theorem srl (rd rs1 rs2 : Reg) : Statement (.srl rd rs1 rs2) :=
  (encodeR_masked _ _ _ _ _ _).trans rfl

theorem and (rd rs1 rs2 : Reg) : Statement (.and rd rs1 rs2) :=
  (encodeR_masked _ _ _ _ _ _).trans rfl

theorem jalr (rs1 : Reg) : Statement (.jalr rs1) :=
  (encodeI_opcode _ _ _ _ _).trans rfl

theorem jal (rd : Reg) (imm : Int) : Statement (.jal rd imm) :=
  (encodeJ_opcode _ _ _).trans rfl

theorem addi (rd rs1 : Reg) (imm : Int) : Statement (.addi rd rs1 imm) :=
  (encodeI_masked _ _ _ _ _).trans rfl

theorem srli (rd rs1 : Reg) (shamt : BitVec 5) : Statement (.srli rd rs1 shamt) :=
  (encodeR_masked _ _ _ _ _ _).trans rfl

theorem sllw (rd rs1 rs2 : Reg) : Statement (.sllw rd rs1 rs2) :=
  (encodeR_masked _ _ _ _ _ _).trans rfl

theorem sraw (rd rs1 rs2 : Reg) : Statement (.sraw rd rs1 rs2) :=
  (encodeR_masked _ _ _ _ _ _).trans rfl

theorem beq (rs1 rs2 : Reg) (imm : Int) : Statement (.beq rs1 rs2 imm) :=
  (encodeB_masked _ _ _ _ _).trans rfl

theorem bne (rs1 rs2 : Reg) (imm : Int) : Statement (.bne rs1 rs2 imm) :=
  (encodeB_masked _ _ _ _ _).trans rfl

theorem blt (rs1 rs2 : Reg) (imm : Int) : Statement (.blt rs1 rs2 imm) :=
  (encodeB_masked _ _ _ _ _).trans rfl

theorem bge (rs1 rs2 : Reg) (imm : Int) : Statement (.bge rs1 rs2 imm) :=
  (encodeB_masked _ _ _ _ _).trans rfl

theorem sb (rs1 rs2 : Reg) (imm : Int) : Statement (.sb rs1 rs2 imm) :=
  (encodeS_masked _ _ _ _ _).trans rfl

theorem sw (rs1 rs2 : Reg) (imm : Int) : Statement (.sw rs1 rs2 imm) :=
  (encodeS_masked _ _ _ _ _).trans rfl

theorem sd (rs1 rs2 : Reg) (imm : Int) : Statement (.sd rs1 rs2 imm) :=
  (encodeS_masked _ _ _ _ _).trans rfl

theorem lb (rd rs1 : Reg) (imm : Int) : Statement (.lb rd rs1 imm) :=
  (encodeI_masked _ _ _ _ _).trans rfl

theorem lw (rd rs1 : Reg) (imm : Int) : Statement (.lw rd rs1 imm) :=
  (encodeI_masked _ _ _ _ _).trans rfl

theorem ld (rd rs1 : Reg) (imm : Int) : Statement (.ld rd rs1 imm) :=
  (encodeI_masked _ _ _ _ _).trans rfl

end Sys2Proof.Laws.TableRow
end

