-- ==== Sys2Proof/Machine/Assembly.lean ====
section
/-! DEFINITION. The assembler's view of the instruction set (30_encoding.md R102, R103): how an instruction is written,
and which instruction a pseudo-instruction stands for.  The hardware does not depend on it. -/

namespace Sys2Proof

/-- The pseudo-instructions of R103 that stay inside the set; a label is given as its displacement `label - pc`. -/
inductive Pseudo where
  | ret
  | jr (rs : Reg)
  | j (disp : Int)
  | jalTo (disp : Int)
  | li (rd : Reg) (imm : Int)
  | mv (rd rs : Reg)
  | nop
  | neg (rd rs : Reg)
  | beqz (rs : Reg) (disp : Int)
  | bnez (rs : Reg) (disp : Int)
  | bltz (rs : Reg) (disp : Int)
  | bgez (rs : Reg) (disp : Int)
  | blez (rs : Reg) (disp : Int)
  | bgtz (rs : Reg) (disp : Int)
  | bgt (rs rt : Reg) (disp : Int)
  | ble (rs rt : Reg) (disp : Int)
  deriving DecidableEq, Repr

/-- The expansion column of R103. -/
def Pseudo.expand : Pseudo → Instr
  | .ret => .jalr 1
  | .jr rs => .jalr rs
  | .j disp => .jal 0 disp
  | .jalTo disp => .jal 1 disp
  | .li rd imm => .addi rd 0 imm
  | .mv rd rs => .addi rd rs 0
  | .nop => .addi 0 0 0
  | .neg rd rs => .sub rd 0 rs
  | .beqz rs disp => .beq rs 0 disp
  | .bnez rs disp => .bne rs 0 disp
  | .bltz rs disp => .blt rs 0 disp
  | .bgez rs disp => .bge rs 0 disp
  | .blez rs disp => .bge 0 rs disp
  | .bgtz rs disp => .blt 0 rs disp
  | .bgt rs rt disp => .blt rt rs disp
  | .ble rs rt disp => .bge rt rs disp

/-- A register as the assembler writes it: `x0` .. `x31` (R102). -/
def regName (r : Reg) : String := "x" ++ toString r.val

/-- The ABI names, `x0` first (10_state.md R22). -/
def abiNames : List String :=
  ["zero", "ra", "sp", "gp", "tp", "t0", "t1", "t2", "s0", "s1", "a0", "a1", "a2", "a3", "a4", "a5"] ++
  ["a6", "a7", "s2", "s3", "s4", "s5", "s6", "s7", "s8", "s9", "s10", "s11", "t3", "t4", "t5", "t6"]

/-- `op rd, rs1, rs2` (R102). -/
def asmRegReg (op : String) (rd rs1 rs2 : Reg) : String :=
  op ++ " " ++ regName rd ++ ", " ++ regName rs1 ++ ", " ++ regName rs2

/-- `op a, b, n`: register-immediate forms and branches, a label as its displacement (R102). -/
def asmRegRegNum (op : String) (a b : Reg) (n : Int) : String :=
  op ++ " " ++ regName a ++ ", " ++ regName b ++ ", " ++ toString n

/-- `op r, imm(rs1)`: loads, stores and the indirect jump (R102). -/
def asmMemory (op : String) (r rs1 : Reg) (imm : Int) : String :=
  op ++ " " ++ regName r ++ ", " ++ toString imm ++ "(" ++ regName rs1 ++ ")"

/-- An instruction as the assembler writes it (R102); JALR in its canonical form (30_encoding.md R98). -/
def Instr.asm : Instr → String
  | .add rd rs1 rs2 => asmRegReg "add" rd rs1 rs2
  | .mul rd rs1 rs2 => asmRegReg "mul" rd rs1 rs2
  | .sub rd rs1 rs2 => asmRegReg "sub" rd rs1 rs2
  | .sll rd rs1 rs2 => asmRegReg "sll" rd rs1 rs2
  | .srl rd rs1 rs2 => asmRegReg "srl" rd rs1 rs2
  | .and rd rs1 rs2 => asmRegReg "and" rd rs1 rs2
  | .jalr rs1 => asmMemory "jalr" 0 rs1 0
  | .jal rd imm => "jal " ++ regName rd ++ ", " ++ toString imm
  | .addi rd rs1 imm => asmRegRegNum "addi" rd rs1 imm
  | .srli rd rs1 shamt => asmRegRegNum "srli" rd rs1 shamt.toNat
  | .sllw rd rs1 rs2 => asmRegReg "sllw" rd rs1 rs2
  | .sraw rd rs1 rs2 => asmRegReg "sraw" rd rs1 rs2
  | .beq rs1 rs2 imm => asmRegRegNum "beq" rs1 rs2 imm
  | .bne rs1 rs2 imm => asmRegRegNum "bne" rs1 rs2 imm
  | .blt rs1 rs2 imm => asmRegRegNum "blt" rs1 rs2 imm
  | .bge rs1 rs2 imm => asmRegRegNum "bge" rs1 rs2 imm
  | .sb rs1 rs2 imm => asmMemory "sb" rs2 rs1 imm
  | .sw rs1 rs2 imm => asmMemory "sw" rs2 rs1 imm
  | .sd rs1 rs2 imm => asmMemory "sd" rs2 rs1 imm
  | .lb rd rs1 imm => asmMemory "lb" rd rs1 imm
  | .lw rd rs1 imm => asmMemory "lw" rd rs1 imm
  | .ld rd rs1 imm => asmMemory "ld" rd rs1 imm

end Sys2Proof
end

