-- ==== Sys2Proof/Tests/Slice0.lean ====
section
/-! SUPPORT. This model's own tests: well-formedness, decoding of words written out from the spec's encodings, one or two
steps' worth of each instruction with the results 95_test_vectors.md gives, and for every conditional statement of the
obligations a concrete case that meets its hypotheses. -/

namespace Sys2Proof.Tests

open Sys2Proof Sys2Proof.Machine Sys2Proof.Claims

/-! ### Well-formedness: each check refuses an ill-formed term -/

theorem test_wf_addi_high : (Instr.addi 1 1 2048).wf = false := by decide
theorem test_wf_addi_low : (Instr.addi 1 1 (-2049)).wf = false := by decide
theorem test_wf_load_high : [Instr.lb 1 1 2048, .lw 1 1 2048, .ld 1 1 2048].map Instr.wf = [false, false, false] := by
  decide
theorem test_wf_store_low : [Instr.sb 1 1 (-2049), .sw 1 1 (-2049), .sd 1 1 (-2049)].map Instr.wf =
    [false, false, false] := by decide
theorem test_wf_branch_odd : [Instr.beq 1 1 7, .bne 1 1 7, .blt 1 1 7, .bge 1 1 7].map Instr.wf =
    [false, false, false, false] := by decide
theorem test_wf_branch_range : [Instr.beq 1 1 4096, .beq 1 1 (-4098)].map Instr.wf = [false, false] := by decide
theorem test_wf_jal_odd : (Instr.jal 1 3).wf = false := by decide
theorem test_wf_jal_range : [Instr.jal 1 1048576, .jal 1 (-1048578)].map Instr.wf = [false, false] := by decide
theorem test_wf_bounds : [Instr.addi 1 1 2047, .addi 1 1 (-2048), .beq 1 1 4094, .beq 1 1 (-4096), .jal 1 1048574,
    .jal 1 (-1048576)].map Instr.wf = [true, true, true, true, true, true] := by decide

/-! ### Decoding: words written out field by field from 30_encoding.md R72 to R76 and R92 to R98 -/

theorem test_decode_add :
    decodeWord (0b0000000#7 ++ 0b11101#5 ++ 0b10001#5 ++ 0b000#3 ++ 0b01010#5 ++ 0b0110011#7) =
      .ok (.add 10 17 29) := by decide
theorem test_decode_mul :
    decodeWord (0b0000001#7 ++ 0b11101#5 ++ 0b10001#5 ++ 0b000#3 ++ 0b01010#5 ++ 0b0110011#7) =
      .ok (.mul 10 17 29) := by decide
theorem test_decode_sub :
    decodeWord (0b0100000#7 ++ 0b11101#5 ++ 0b10001#5 ++ 0b000#3 ++ 0b01010#5 ++ 0b0110011#7) =
      .ok (.sub 10 17 29) := by decide
theorem test_decode_sll :
    decodeWord (0b0000000#7 ++ 0b11101#5 ++ 0b10001#5 ++ 0b001#3 ++ 0b01010#5 ++ 0b0110011#7) =
      .ok (.sll 10 17 29) := by decide
theorem test_decode_srl :
    decodeWord (0b0000000#7 ++ 0b11101#5 ++ 0b10001#5 ++ 0b101#3 ++ 0b01010#5 ++ 0b0110011#7) =
      .ok (.srl 10 17 29) := by decide
theorem test_decode_and :
    decodeWord (0b0000000#7 ++ 0b11101#5 ++ 0b10001#5 ++ 0b111#3 ++ 0b01010#5 ++ 0b0110011#7) =
      .ok (.and 10 17 29) := by decide
/-- R98: `rd`, `funct3` and the immediate bits are ignored. -/
theorem test_decode_jalr :
    decodeWord (0b101010101010#12 ++ 0b00101#5 ++ 0b111#3 ++ 0b00001#5 ++ 0b1100111#7) =
      .ok (.jalr 5) := by decide
/-- R83: 0xFFDFF06F is a jump by -4. -/
theorem test_decode_jal :
    decodeWord (0b1#1 ++ 0b1111111110#10 ++ 0b1#1 ++ 0b11111111#8 ++ 0b00000#5 ++ 0b1101111#7) =
      .ok (.jal 0 (-4)) := by decide
/-- One bit of each scattered piece: bits 20, 19, 11, 10 and 1 of the displacement. -/
theorem test_decode_jal_pieces :
    decodeWord (0b1#1 ++ 0b1000000001#10 ++ 0b1#1 ++ 0b10000000#8 ++ 0b11110#5 ++ 0b1101111#7) =
      .ok (.jal 30 (-1048576 + 524288 + 2048 + 1024 + 2)) := by decide
theorem test_decode_addi :
    decodeWord (0b111111111110#12 ++ 0b10001#5 ++ 0b000#3 ++ 0b01010#5 ++ 0b0010011#7) =
      .ok (.addi 10 17 (-2)) := by decide
theorem test_decode_srli :
    decodeWord (0b0000000#7 ++ 0b11111#5 ++ 0b10001#5 ++ 0b101#3 ++ 0b01010#5 ++ 0b0010011#7) =
      .ok (.srli 10 17 31) := by decide
theorem test_decode_sllw :
    decodeWord (0b0000000#7 ++ 0b11101#5 ++ 0b10001#5 ++ 0b001#3 ++ 0b01010#5 ++ 0b0111011#7) =
      .ok (.sllw 10 17 29) := by decide
theorem test_decode_sraw :
    decodeWord (0b0100000#7 ++ 0b11101#5 ++ 0b10001#5 ++ 0b101#3 ++ 0b01010#5 ++ 0b0111011#7) =
      .ok (.sraw 10 17 29) := by decide
theorem test_decode_beq : decodeWord (0b1#1 ++ 0b000001#6 ++ 0b11101#5 ++ 0b10001#5 ++ 0b000#3 ++ 0b0001#4 ++ 0b1#1 ++
    0b1100011#7) = .ok (.beq 17 29 (-4096 + 2048 + 32 + 2)) := by decide
theorem test_decode_bne : decodeWord (0b1#1 ++ 0b000001#6 ++ 0b11101#5 ++ 0b10001#5 ++ 0b001#3 ++ 0b0001#4 ++ 0b1#1 ++
    0b1100011#7) = .ok (.bne 17 29 (-4096 + 2048 + 32 + 2)) := by decide
theorem test_decode_blt : decodeWord (0b1#1 ++ 0b000001#6 ++ 0b11101#5 ++ 0b10001#5 ++ 0b100#3 ++ 0b0001#4 ++ 0b1#1 ++
    0b1100011#7) = .ok (.blt 17 29 (-4096 + 2048 + 32 + 2)) := by decide
theorem test_decode_bge : decodeWord (0b1#1 ++ 0b000001#6 ++ 0b11101#5 ++ 0b10001#5 ++ 0b101#3 ++ 0b0001#4 ++ 0b1#1 ++
    0b1100011#7) = .ok (.bge 17 29 (-4096 + 2048 + 32 + 2)) := by decide
theorem test_decode_sb :
    decodeWord (0b1000001#7 ++ 0b11101#5 ++ 0b10001#5 ++ 0b000#3 ++ 0b00011#5 ++ 0b0100011#7) =
      .ok (.sb 17 29 (-2048 + 32 + 3)) := by decide
theorem test_decode_sw :
    decodeWord (0b1000001#7 ++ 0b11101#5 ++ 0b10001#5 ++ 0b010#3 ++ 0b00011#5 ++ 0b0100011#7) =
      .ok (.sw 17 29 (-2048 + 32 + 3)) := by decide
theorem test_decode_sd :
    decodeWord (0b1000001#7 ++ 0b11101#5 ++ 0b10001#5 ++ 0b011#3 ++ 0b00011#5 ++ 0b0100011#7) =
      .ok (.sd 17 29 (-2048 + 32 + 3)) := by decide
theorem test_decode_lb :
    decodeWord (0b100000100011#12 ++ 0b10001#5 ++ 0b000#3 ++ 0b01010#5 ++ 0b0000011#7) =
      .ok (.lb 10 17 (-2048 + 35)) := by decide
theorem test_decode_lw :
    decodeWord (0b100000100011#12 ++ 0b10001#5 ++ 0b010#3 ++ 0b01010#5 ++ 0b0000011#7) =
      .ok (.lw 10 17 (-2048 + 35)) := by decide
theorem test_decode_ld :
    decodeWord (0b100000100011#12 ++ 0b10001#5 ++ 0b011#3 ++ 0b01010#5 ++ 0b0000011#7) =
      .ok (.ld 10 17 (-2048 + 35)) := by decide

/-- Byte order of a word: the first byte is the low one (20_memory.md R51). -/
theorem test_decode_bytes : decode [0xB3#8, 0x81#8, 0x20#8, 0x00#8, 0xAA#8] = .ok (.add 3 1 2, [0xAA#8]) := by decide
theorem test_decode_truncated : decode [0xB3#8, 0x81#8, 0x20#8] = .error .truncated := by decide
theorem test_decodeTableWord : decodeTableWord 32 0x4020D1BB = some (.sraw 3 1 2) := by decide
theorem test_decodeTableWord_unsupported : decodeTableWord 32 0x00000073 = none := by decide
theorem test_encode_extremes : [encode (.jal 0 (-1048576)), encode (.jal 0 1048574), encode (.beq 0 0 (-4096)),
    encode (.beq 0 0 4094), encode (.sd 1 2 (-16)), encode (.jalr 1)] =
    [0x8000006F#32, 0x7FFFF06F#32, 0x80000063#32, 0x7E000FE3#32, 0xFE20B823#32, 0x00008067#32] := by decide

/-- R103, with the words of 95_test_vectors.md P1, P2 and of R100. -/
theorem test_pseudo : [Pseudo.ret, .nop, .li 10 10, .beqz 10 16, .bnez 10 (-8)].map (fun p => encode p.expand) =
    [0x00008067#32, 0x00000013#32, 0x00A00513#32, 0x00050863#32, 0xFE051CE3#32] := by decide

/-! ### Reserved words report their cause (95_test_vectors.md V8) -/

def causeOf (iw : InstrWord) : Option (Nat × OffendingField) :=
  match decodeWord iw with
  | .ok _ => none
  | .error u => some (u.category.code, u.field)

theorem test_cause_opcode : [0x00000000#32, 0xFFFFFFFF#32, 0x0000001B#32].map causeOf =
    [some (1, .opcode 0x00#7), some (1, .opcode 0x7F#7), some (1, .opcode 0x1B#7)] := by decide
theorem test_cause_rType : [0x00004033#32, 0x40005033#32, 0x02001033#32].map causeOf =
    [some (2, .funct3and7 4#3 0#7), some (2, .funct3and7 5#3 0x20#7), some (2, .funct3and7 1#3 1#7)] := by decide
theorem test_cause_iArith : [0x00001013#32, 0x4000D013#32, 0x0200D193#32].map causeOf =
    [some (3, .funct3and7 1#3 0#7), some (3, .funct3and7 5#3 0x20#7), some (3, .funct3and7 5#3 1#7)] := by decide
theorem test_cause_wType : [0x0000003B#32, 0x0000503B#32].map causeOf =
    [some (4, .funct3and7 0#3 0#7), some (4, .funct3and7 5#3 0#7)] := by decide
theorem test_cause_memory_branch : [0x00001003#32, 0x00006003#32, 0x00006063#32, 0x00002063#32, 0x00001023#32].map causeOf =
    [some (5, .funct3 1#3), some (5, .funct3 6#3), some (6, .funct3 6#3), some (6, .funct3 2#3),
      some (7, .funct3 1#3)] := by decide

/-! ### One step of each instruction: results from 95_test_vectors.md -/

/-- The state after reset with `x1` and `x2` set. -/
def withX1X2 (a b : Word) : State := (State.reset.writeReg 1 a).writeReg 2 b

/-- What one step on a word gives, seen through `view`; none where the step gives no next state. -/
def after {α : Type} (w : Nat) (s : State) (view : State → α) : Option α :=
  match step (s.withFetchWord 32 w) with
  | .next t => some (view t)
  | .fault _ => none
  | .refused _ => none

/-- Why a state has no next one. -/
def stopAt (s : State) : Option Fault :=
  match step s with
  | .next _ => none
  | .fault f => some f
  | .refused _ => none

/-- Why one step on a word gives no next state. -/
def stopOf (w : Nat) (s : State) : Option Fault := stopAt (s.withFetchWord 32 w)

/-- The counters as a list: total, alu, load, store, jump, taken, not taken. -/
def counters (s : State) : List Nat :=
  [s.ctr.total, s.ctr.alu, s.ctr.load, s.ctr.store, s.ctr.jump, s.ctr.brTaken, s.ctr.brNotTaken].map BitVec.toNat

/-- Register 3, pc and the counters. -/
def view3 (s : State) : Word × Word × List Nat := (s.readReg 3, s.pc, counters s)

/-- What the word leaves in `x3`. -/
def x3After (w : Nat) (a b : Word) : Option Word := after w (withX1X2 a b) (State.readReg · 3)

theorem test_add :
    after 0x002081B3 (withX1X2 5#64 7#64) view3 = some (0xC#64, 0x1004#64, [1, 1, 0, 0, 0, 0, 0]) := by decide
theorem test_add_wraps : x3After 0x002081B3 0xFFFFFFFFFFFFFFFF#64 1#64 = some 0#64 := by decide
theorem test_mul :
    x3After 0x022081B3 0x123456789ABCDEF0#64 0x0FEDCBA987654321#64 = some 0x2236D88FE5618CF0#64 := by decide
theorem test_mul_negative : x3After 0x022081B3 3#64 0xFFFFFFFFFFFFFFFF#64 = some 0xFFFFFFFFFFFFFFFD#64 := by decide
theorem test_sub : x3After 0x402081B3 5#64 7#64 = some 0xFFFFFFFFFFFFFFFE#64 := by decide
theorem test_sll : x3After 0x002091B3 1#64 65#64 = some 2#64 := by decide
theorem test_sll_out : x3After 0x002091B3 0x8000000000000001#64 1#64 = some 2#64 := by decide
theorem test_srl : x3After 0x0020D1B3 0xF0F0F0F0F0F0F0F0#64 0x104#64 = some 0x0F0F0F0F0F0F0F0F#64 := by decide
theorem test_srl_no_sign : x3After 0x0020D1B3 0x8000000000000000#64 63#64 = some 1#64 := by decide
theorem test_and :
    x3After 0x0020F1B3 0x123456789ABCDEF0#64 0x0FEDCBA987654321#64 = some 0x0224422882244220#64 := by decide
theorem test_addi_minus_one :
    after 0xFFF28293 (State.reset.writeReg 5 0x8000000000000000#64) (State.readReg · 5) = some 0x7FFFFFFFFFFFFFFF#64 := by decide
theorem test_addi_from_x0 : after 0x80000513 State.reset (State.readReg · 10) = some 0xFFFFFFFFFFFFF800#64 := by decide
theorem test_srli : x3After 0x01F0D193 0xFFFFFFFFFFFFFFFF#64 0#64 = some 0x00000001FFFFFFFF#64 := by decide
theorem test_sllw : x3After 0x002091BB 0x123456789ABCDEF0#64 0x24#64 = some 0xFFFFFFFFABCDEF00#64 := by decide
theorem test_sllw_amount_32 : x3After 0x002091BB 0xFFFFFFFF00000001#64 32#64 = some 1#64 := by decide
theorem test_sraw : x3After 0x4020D1BB 0x123456789ABCDEF0#64 0x24#64 = some 0xFFFFFFFFF9ABCDEF#64 := by decide
theorem test_sraw_positive : x3After 0x4020D1BB 0xDEADBEEF12345678#64 8#64 = some 0x123456#64 := by decide

/-- `rd` equal to both sources, and a discarded result (V2). -/
theorem test_add_same_register : after 0x001080B3 (withX1X2 0x4000000000000001#64 0#64) (State.readReg · 1) =
    some 0x8000000000000002#64 := by decide
theorem test_add_to_x0 : after 0x00208033 (withX1X2 5#64 7#64) (fun t => (t.regs, t.ctr.alu)) =
    some ((withX1X2 5#64 7#64).regs, 1#64) := by decide

def pcAndBranches (s : State) : Word × List Nat := (s.pc, counters s)

theorem test_beq_taken : after 0xFE208CE3 (withX1X2 5#64 5#64) pcAndBranches =
    some (0x0FF8#64, [1, 0, 0, 0, 0, 1, 0]) := by decide
theorem test_beq_not_taken : after 0x00208863 (withX1X2 5#64 7#64) pcAndBranches =
    some (0x1004#64, [1, 0, 0, 0, 0, 0, 1]) := by decide
theorem test_bne_taken : after 0x00209863 (withX1X2 5#64 7#64) pcAndBranches =
    some (0x1010#64, [1, 0, 0, 0, 0, 1, 0]) := by decide
theorem test_bne_not_taken : after 0x00209863 (withX1X2 7#64 7#64) pcAndBranches =
    some (0x1004#64, [1, 0, 0, 0, 0, 0, 1]) := by decide
theorem test_blt_signed : after 0x0020C863 (withX1X2 0xFFFFFFFFFFFFFFFF#64 1#64) pcAndBranches =
    some (0x1010#64, [1, 0, 0, 0, 0, 1, 0]) := by decide
theorem test_blt_equal : after 0x0020C863 (withX1X2 5#64 5#64) pcAndBranches =
    some (0x1004#64, [1, 0, 0, 0, 0, 0, 1]) := by decide
theorem test_bge_equal : after 0xFE20DCE3 (withX1X2 5#64 5#64) pcAndBranches =
    some (0x0FF8#64, [1, 0, 0, 0, 0, 1, 0]) := by decide
theorem test_bge_signed : after 0x0020D863 (withX1X2 0x8000000000000000#64 0x7FFFFFFFFFFFFFFF#64) pcAndBranches =
    some (0x1004#64, [1, 0, 0, 0, 0, 0, 1]) := by decide

theorem test_jal_links : after 0x008000EF State.reset (fun t => (t.readReg 1, t.pc, counters t)) =
    some (0x1004#64, 0x1008#64, [1, 0, 0, 0, 1, 0, 0]) := by decide
theorem test_jal_wraps : after 0x008000EF (State.reset.setPc 0xFFFFFFFFFFFFFFFC#64) (fun t => (t.readReg 1, t.pc)) =
    some (0#64, 4#64) := by decide
theorem test_jalr_return : after 0x00008067 (withX1X2 0x2000#64 0#64) (fun t => (t.pc, counters t)) =
    some (0x2000#64, [1, 0, 0, 0, 1, 0, 0]) := by decide
/-- V7: no offset added, bit 0 kept, no link written. -/
theorem test_jalr_ignores : after 0x008280E7 (State.reset.writeReg 5 0x2001#64) (fun t => (t.pc, t.readReg 1)) =
    some (0x2001#64, 0#64) := by decide

/-- The bytes from an address on. -/
def bytesAt (a n : Nat) (s : State) : List (Option Byte) := (List.range n).map (fun k => s.readByte (a + k))

def storing : State := withX1X2 0x7100#64 0x1122334455667788#64

theorem test_sd : after 0xFE20B823 storing (bytesAt 0x70F0 8) = some
    [some 0x88#8, some 0x77#8, some 0x66#8, some 0x55#8, some 0x44#8, some 0x33#8, some 0x22#8, some 0x11#8] := by decide
theorem test_sw : after 0x0020A423 storing (bytesAt 0x7107 6) =
    some [some 0#8, some 0x88#8, some 0x77#8, some 0x66#8, some 0x55#8, some 0#8] := by decide
theorem test_sb : after 0x00208423 storing (fun t => (bytesAt 0x7108 2 t, counters t)) =
    some ([some 0x88#8, some 0#8], [1, 0, 0, 1, 0, 0, 0]) := by decide

/-- After the SD at 8(x1) of V6. -/
def loading : State := { storing with mem := [(0x7108, 0x88#8), (0x7109, 0x77#8), (0x710A, 0x66#8), (0x710B, 0xF5#8),
  (0x710C, 0x44#8), (0x710D, 0x33#8), (0x710E, 0x22#8), (0x710F, 0x11#8)] }

theorem test_lb_zero_extends : after 0x00808183 loading view3 =
    some (0x88#64, 0x1004#64, [1, 0, 1, 0, 0, 0, 0]) := by decide
theorem test_lw_zero_extends : after 0x0080A183 loading view3 =
    some (0xF5667788#64, 0x1004#64, [1, 0, 1, 0, 0, 0, 0]) := by decide
theorem test_ld : after 0x0080B183 loading (State.readReg · 3) = some 0x11223344F5667788#64 := by decide
/-- Misaligned (D7): LW at 9(x1). -/
theorem test_lw_misaligned : after 0x0090A183 loading (State.readReg · 3) = some 0x44F56677#64 := by decide
/-- A load to x0 still reads and counts (R21). -/
theorem test_ld_to_x0 : after 0x0080B003 loading (fun t => (t.readReg 0, t.ctr.load)) = some (0#64, 1#64) := by decide

/-! ### The stops of a step -/

theorem test_memUndefined : stopOf 0x0000B023 (withX1X2 0x8000#64 0#64) = some (.memUndefined 0x8000#64 8) := by decide
theorem test_memUndefined_straddle : stopOf 0x0000B023 (withX1X2 0x7FFC#64 0#64) = some (.memUndefined 0x7FFC#64 8) := by
  decide
theorem test_load_memUndefined : stopOf 0x0000A183 (withX1X2 0x6FFF#64 0#64) = some (.memUndefined 0x6FFF#64 4) := by
  decide
theorem test_storeToText : stopOf 0x00008023 ((withX1X2 0x7003#64 0#64).setPc 0x7000#64) =
    some (.storeToText 0x7003#64) := by decide
theorem test_fetchUndefined : stopAt State.reset = some (.fetchUndefined 0x1000#64) := by decide
theorem test_halted : stopOf 0x002081B3 (State.reset.setPc 0#64) = some .halted := by decide

/-- V8: the latch takes category, field, word and address, and nothing else changes. -/
theorem test_fatal_latch : after 0x00000073 State.reset id = some
    { State.reset.withFetchWord 32 0x00000073 with
      fatal := some ⟨.opcode, .opcode 0x73#7, 0x00000073#32, 0x1000#64⟩ } := by decide

/-- R203: a reserved load word is reported before its address is formed. -/
theorem test_fatal_before_address : after 0x00001003 State.reset (fun t => (t.pc, t.fatal)) =
    some (0x1000#64, some ⟨.load, .funct3 1#3, 0x00001003#32, 0x1000#64⟩) := by decide

/-- INSTR_EN false: the counters stay 0 (R33). -/
theorem test_counters_off : after 0x002081B3 { withX1X2 5#64 7#64 with instrEn := false } view3 =
    some (0xC#64, 0x1004#64, [0, 0, 0, 0, 0, 0, 0]) := by decide

/-! ### Witnesses: for every conditional statement a case that meets its hypotheses, boundary values among them -/

/-- The state after reset with one word at ENTRY: running, and its word fetched. -/
def ready (w : Nat) : State := State.reset.withFetchWord 32 w

theorem witness_extractBits_domain : 0 + 64 ≤ 64 ∧ 64 + 0 ≤ 64 ∧ (extractBits 0xDEADBEEFCAFEF00D#64 60 4).toNat = 0xD := by
  decide

theorem witness_signExtend_bits : getBit 0x8000000000000000#64 63 = true ∧ getBit 0x1#64 0 = true ∧
    getBit 0x0#64 0 = false ∧ getBit 0x7FFFFFFFFFFFFFFF#64 63 = false := by decide

/-- All other bits set, every row's word still matches and decodes to it. -/
theorem witness_rows_match : opcodeTable.all (fun r =>
    let iw := r.value ||| ~~~r.mask
    decide (iw &&& r.mask = r.value) && decide (opcodeTable.countP (fun q => iw &&& q.mask = q.value) = 1)) = true := by
  decide

theorem witness_jal_extremes : [(-1048576 : Int), -4, 0, 2048, 1048574].map (fun v => immJ (encode (.jal 0 v))) =
    [-1048576, -4, 0, 2048, 1048574] := by decide

theorem witness_wf_extremes : (Instr.jal 31 (-1048576)).wf = true ∧ (Instr.bge 31 0 4094).wf = true ∧
    (Instr.sd 0 31 (-2048)).wf = true ∧ (Instr.ld 31 31 2047).wf = true := by decide

theorem witness_decode_ok : decodeWord 0x002081B3#32 = .ok (.add 3 1 2) ∧ (∀ rs1, Instr.add 3 1 2 ≠ .jalr rs1) ∧
    decodeWord 0xFFF0F0E7#32 = .ok (.jalr 1) := by
  refine ⟨by decide, ?_, by decide⟩
  simp

theorem witness_unsupported_clauses :
    (0x0F#7 ∉ [0x33#7, 0x67#7, 0x13#7, 0x3B#7, 0x03#7, 0x63#7, 0x23#7, 0x6F#7]) ∧
    ((0#3, 2#7) ∉ [(0#3, 0#7), (0#3, 1#7), (0#3, 0x20#7), (1#3, 0#7), (5#3, 0#7), (7#3, 0#7)]) ∧
    ((5#3, 0x20#7) ≠ (5#3, 0#7)) ∧ ((5#3, 0#7) ∉ [(1#3, 0#7), (5#3, 0x20#7)]) ∧
    (7#3 ∉ [0#3, 2#3, 3#3]) ∧ (7#3 ∉ [0#3, 1#3, 4#3, 5#3]) := by decide

theorem witness_step_runs : Running (ready 0x002081B3) ∧ Fetches (ready 0x002081B3) 0x002081B3#32 ∧
    decodeWord 0x002081B3#32 = .ok (.add 3 1 2) := ⟨⟨rfl, by decide⟩, by unfold Fetches; decide, by decide⟩

theorem witness_unsupported_step : Running (ready 0x73) ∧ Fetches (ready 0x73) 0x73#32 ∧
    decodeWord 0x73#32 = .error ⟨.opcode, .opcode 0x73#7⟩ := ⟨⟨rfl, by decide⟩, by unfold Fetches; decide, by decide⟩

/-- A fatal block and a halted one: neither is running. -/
def latched : State := State.reset.raiseFatal ⟨.opcode, .opcode 0x73#7⟩ 0x73#32

theorem witness_not_running : latched.status = .fatal ∧ latched.fatal = some ⟨.opcode, .opcode 0x73#7, 0x73#32, 0x1000#64⟩ ∧
    (State.reset.setPc 0#64).status = .halted ∧ (State.reset.setPc 0#64).fatal = none ∧
    (State.reset.setPc 0#64).pc = State.reset.platform.stopPc := by decide

/-- A word across the top of the address space, and a text that lacks only the last byte of the word. -/
def topText : Text := [(0, 0x20#8), (1, 0x00#8), (0xFFFFFFFFFFFFFFFE, 0xB3#8), (0xFFFFFFFFFFFFFFFF, 0x81#8)]

theorem witness_fetch_wraps : lookupCell topText (addrAt 0xFFFFFFFFFFFFFFFE#64 0) = some 0xB3#8 ∧
    lookupCell topText (addrAt 0xFFFFFFFFFFFFFFFE#64 1) = some 0x81#8 ∧
    lookupCell topText (addrAt 0xFFFFFFFFFFFFFFFE#64 2) = some 0x20#8 ∧
    lookupCell topText (addrAt 0xFFFFFFFFFFFFFFFE#64 3) = some 0x00#8 ∧
    fetchWord topText 0xFFFFFFFFFFFFFFFE#64 = some 0x002081B3#32 := by decide

def shortText : State := { State.reset with imem := [(0x1000, 0xB3#8), (0x1001, 0x81#8), (0x1002, 0x20#8)] }

theorem witness_fetch_undefined : Running shortText ∧ (∃ k < 4, lookupCell shortText.imem (addrAt shortText.pc k) = none) :=
  ⟨⟨rfl, by decide⟩, 3, by decide, by decide⟩

/-- Loads: the last bytes of the stack, and a misaligned access. -/
theorem witness_load_bytes : HoldsBytes loading 0x7FFF#64 1 (fun _ => 0#8) ∧
    HoldsBytes loading 0x7FFC#64 4 (fun _ => 0#8) ∧ HoldsBytes loading 0x7FF8#64 8 (fun _ => 0#8) ∧
    HoldsBytes loading 0x7109#64 4 (fun k => [0x77#8, 0x66#8, 0xF5#8, 0x44#8].getD k 0#8) := by
  unfold HoldsBytes; decide

/-- Stores: the first and last bytes of the stack are defined and no text. -/
theorem witness_store_bytes : ¬SomeUndefined storing 0x7000#64 8 ∧ ¬SomeText storing 0x7000#64 8 ∧
    ¬SomeUndefined storing 0x7FF8#64 8 ∧ ¬SomeText storing 0x7FF8#64 8 ∧ ¬SomeUndefined storing 0x7FFF#64 1 ∧
    ¬SomeUndefined storing 0x7FFC#64 4 := by
  unfold SomeUndefined SomeText; decide

/-- Accesses with only their last, or only their first, byte outside the stack. -/
theorem witness_undefined_access : SomeUndefined storing 0x7FF9#64 8 ∧ SomeUndefined storing 0x6FFF#64 4 ∧
    SomeUndefined storing 0x8000#64 1 := by unfold SomeUndefined; decide

/-- Text inside the stack region: a store whose last byte is its first byte. -/
def textInStack : State := { State.reset with imem := [(0x7010, 0xB3#8)] }

theorem witness_store_to_text : ¬SomeUndefined textInStack 0x7009#64 8 ∧ SomeText textInStack 0x7009#64 8 ∧
    ¬SomeUndefined textInStack 0x700D#64 4 ∧ SomeText textInStack 0x700D#64 4 ∧
    ¬SomeUndefined textInStack 0x7010#64 1 ∧ SomeText textInStack 0x7010#64 1 := by
  unfold SomeUndefined SomeText; decide

theorem witness_reads_back : (∃ t, exec (.sd 1 2 8) storing = .next t ∧
    t.effectiveAddress 1 15 = storing.effectiveAddress 1 8 + BitVec.ofNat 64 7) ∧
    (∃ t, exec (.sw 1 2 8) storing = .next t ∧
      t.effectiveAddress 1 11 = storing.effectiveAddress 1 8 + BitVec.ofNat 64 3) ∧
    ∃ t, exec (.sb 1 2 8) storing = .next t ∧
      t.effectiveAddress 1 8 = storing.effectiveAddress 1 8 + BitVec.ofNat 64 0 :=
  ⟨⟨_, rfl, by decide⟩, ⟨_, rfl, by decide⟩, ⟨_, rfl, by decide⟩⟩

theorem witness_register_zero : destination (.ld 0 1 8) = some 0 ∧ ∃ t, exec (.ld 0 1 8) loading = .next t :=
  ⟨rfl, _, rfl⟩

theorem witness_pc_unsupported : Fetches (ready 0x73) 0x73#32 ∧ decodeWord 0x73#32 = .error ⟨.opcode, .opcode 0x73#7⟩ ∧
    ∃ t, step (ready 0x73) = .next t := ⟨by unfold Fetches; decide, by decide, _, rfl⟩

theorem witness_branches : (∀ i ∈ [Instr.beq 1 2 16, .bne 1 2 (-8), .blt 1 2 0, .bge 0 0 4], isBranch i) ∧
    storing.instrEn = true ∧ (∃ t, exec (.beq 1 2 16) storing = .next t) := by
  refine ⟨?_, rfl, _, rfl⟩
  simp [isBranch]

theorem witness_step_counts : (∃ t, step (ready 0x002081B3) = .next t) ∧ Fetches (ready 0x002081B3) 0x002081B3#32 ∧
    (∃ t, step { ready 0x002081B3 with instrEn := false } = .next t) :=
  ⟨⟨_, rfl⟩, by unfold Fetches; decide, ⟨_, rfl⟩⟩

/-- Two overlapping regions that also lie over the stack, at the top of the address space. -/
def regionInputs : ResetInputs := { Config.exampleInputs with
  entry := 0#64
  platform := { Config.examplePlatform with
    dataRegions := [⟨0x7FFF#64, [0x11#8, 0x22#8]⟩, ⟨0x8000#64, [0x33#8, 0x44#8]⟩, ⟨0xFFFFFFFFFFFFFFFF#64, [0x55#8, 0x66#8]⟩] } }

theorem witness_reset_regions : bytesAt 0x7FFE 5 (State.resetWith regionInputs) =
      [some 0#8, some 0x11#8, some 0x22#8, some 0x44#8, none] ∧
    bytesAt 0xFFFFFFFFFFFFFFFF 2 (State.resetWith regionInputs) = [some 0x55#8, none] ∧
    (State.resetWith regionInputs).status = .halted := by decide

theorem witness_invariant_step : (ready 0x002081B3).Inv ∧ ∃ t, step (ready 0x002081B3) = .next t :=
  ⟨⟨by decide, by decide, by decide, by decide, fun _ h => nomatch h⟩, _, rfl⟩

theorem witness_fault_step : stopAt storing = some (.fetchUndefined 0x1000#64) := by decide

theorem witness_other_registers : (∀ r ∈ sources (.add 3 1 2),
      ({ storing with regs := (storing.writeReg 7 9#64).regs } : State).readReg r = storing.readReg r) ∧
    ({ storing with regs := (storing.writeReg 7 9#64).regs } : State).readReg 7 ≠ storing.readReg 7 ∧
    ∃ t, exec (.add 3 1 2) storing = .next t := ⟨by decide, by decide, _, rfl⟩

theorem witness_text_apart : textApart (ready 0x002081B3).imem (ready 0x002081B3).platform = true ∧
    textApart textInStack.imem textInStack.platform = false ∧
    launchPremises { Config.exampleInputs with imem := (ready 0x002081B3).imem } = true := by decide

/-- R232, row 1: ENTRY's whole word must be in the text, unless ENTRY is STOP_PC. -/
theorem test_entryFetchable : [Config.exampleInputs, { Config.exampleInputs with imem := shortText.imem },
    { Config.exampleInputs with imem := (ready 0x002081B3).imem }, { Config.exampleInputs with entry := 0#64 }].map
      (fun inp => (entryFetchable inp, launchPremises inp)) =
    [(false, false), (false, false), (true, true), (true, true)] := by decide

/-- A program of one `ret`: every row of R232 holds of its launch. -/
theorem witness_sound_launch : soundLaunch 2 { Config.exampleInputs with imem := (ready 0x00008067).imem } :=
  ⟨by decide, by decide, by decide, _, _, rfl⟩

theorem witness_canonical : Memory.wf loading.platform loading.mem = true ∧
    Memory.wf loading.platform [(0x7100, 0#8)] = false ∧ Memory.wf loading.platform [(0x8000, 1#8)] = false ∧
    Memory.wf loading.platform [(0x7101, 1#8), (0x7100, 1#8)] = false := by decide

/-- A run that halts (a `ret` to STOP_PC), one that ends fatal; neither runs out of fuel. -/
theorem witness_run_halts : ∃ t, run 2 (ready 0x00008067) = .halted 0#64 t := ⟨_, rfl⟩

theorem witness_run_fatal : ∃ r t, run 2 (ready 0x73) = .fatal r t := ⟨_, _, rfl⟩

theorem witness_jump_to_stop : (ready 0x00008067).fatal = none ∧ ∃ t, exec (.jalr 1) (ready 0x00008067) = .next t ∧
    t.pc = t.platform.stopPc := ⟨rfl, _, rfl, by decide⟩

theorem witness_branch_to_stop : ∃ t, exec (.beq 0 0 (-4096)) (ready 0x80000063) = .next t ∧
    t.pc = t.platform.stopPc := ⟨_, rfl, by decide⟩

end Sys2Proof.Tests
end

section
/-! PROOF. The statements of 00_scope.md: the bit primitives (R7 to R9), and that no step refuses (R2). -/

namespace Sys2Proof

/-! ### Bits of the primitives -/

/-- Bit `j` of an extracted field is bit `start + j` of the value. -/
theorem getLsbD_extractBits (v : Word) (start count : Nat) (inside : start + count ≤ 64) (j : Nat) :
    (extractBits v start count inside).getLsbD j = (decide (j < count) && v.getLsbD (start + j)) :=
  BitVec.getLsbD_extractLsb' ..

/-- R7's law: the field shifted back to its place is the value under the field's mask. -/
theorem extractBits_shiftLeft_eq_mask (v : Word) (start count : Nat) (inside : start + count ≤ 64) :
    ((extractBits v start count inside).setWidth 64 <<< start : Word) =
      v &&& (BitVec.ofNat 64 (2 ^ count - 1) <<< start) := by
  apply BitVec.eq_of_getLsbD_eq
  intro j hj
  simp only [BitVec.getLsbD_shiftLeft, BitVec.getLsbD_setWidth, BitVec.getLsbD_and, BitVec.getLsbD_ofNat,
    getLsbD_extractBits, Nat.testBit_two_pow_sub_one]
  by_cases below : j < start
  · simp [below]
  · have split_j : start + (j - start) = j := by omega
    have inWord : j - start < 64 := by omega
    simp [below, hj, inWord, split_j, Bool.and_comm]

theorem getBit_eq_true_iff (v : Word) (index : Fin 64) :
    getBit v index = true ↔ v.toNat / 2 ^ index.val % 2 = 1 := by
  rw [getBit, BitVec.getLsbD, Nat.testBit_eq_decide_div_mod_eq, decide_eq_true_eq]

/-! ### The value and the pattern of `sign_extend` -/

theorem signExtend_of_clear {v : Word} {start : Fin 64} (bitClear : v.getLsbD start.val = false) :
    signExtend v start = (v.toNat % 2 ^ (start.val + 1) : Nat) := by
  rw [signExtend, getBit, bitClear]
  simp [extractBits_toNat]

theorem signExtend_of_set {v : Word} {start : Fin 64} (bitSet : v.getLsbD start.val = true) :
    signExtend v start = ((v.toNat % 2 ^ (start.val + 1) : Nat) : Int) - 2 ^ (start.val + 1) := by
  rw [signExtend, getBit, bitSet]
  simp [extractBits_toNat]

theorem signExtend_neg_of_set {v : Word} {start : Fin 64} (bitSet : v.getLsbD start.val = true) :
    signExtend v start < 0 := by
  have magnitude_lt : v.toNat % 2 ^ (start.val + 1) < 2 ^ (start.val + 1) := Nat.mod_lt _ (by positivity)
  rw [signExtend_of_set bitSet]
  exact Int.sub_neg_of_lt (by exact_mod_cast magnitude_lt)

/-- The 64-bit pattern of `sign_extend` repeats bit `start` above it: it is the library's sign extension of the field
that ends at bit `start`. -/
theorem getLsbD_ofInt_signExtend (v : Word) (start : Fin 64) {j : Nat} (hj : j < 64) :
    (BitVec.ofInt 64 (signExtend v start)).getLsbD j = v.getLsbD (min j start.val) := by
  rw [signExtend_eq_toInt, ← BitVec.signExtend, BitVec.getLsbD_signExtend]
  by_cases inField : j < start.val + 1
  · simp [hj, inField, Nat.min_eq_left (Nat.le_of_lt_succ inField)]
  · have above : start.val ≤ j := by omega
    simp [hj, inField, Nat.min_eq_right above, BitVec.msb_eq_getLsbD_last]

end Sys2Proof

namespace Sys2Proof.Machine

/-! ### No shared body, and so no instruction, refuses -/

theorem aluRegReg_ne_refused (op : Word → Word → Word) (rd rs1 rs2 : Reg) (s : State) (r : Refusal) :
    aluRegReg op rd rs1 rs2 s ≠ .refused r := by
  simp [aluRegReg_eq]

theorem aluReg_ne_refused (op : Word → Word) (rd rs1 : Reg) (s : State) (r : Refusal) :
    aluReg op rd rs1 s ≠ .refused r := by
  simp [aluReg_eq]

theorem loadFrom_ne_refused (w : Width) (rd rs1 : Reg) (imm : Int) (s : State) (r : Refusal) :
    loadFrom w rd rs1 imm s ≠ .refused r := by
  cases access : s.load (s.effectiveAddress rs1 imm) w with
  | error f => simp [loadFrom_fault.2 access]
  | ok v => simp [loadFrom_next.2 ⟨v, access, rfl⟩]

theorem storeTo_ne_refused (w : Width) (rs1 rs2 : Reg) (imm : Int) (s : State) (r : Refusal) :
    storeTo w rs1 rs2 imm s ≠ .refused r := by
  cases access : s.store (s.effectiveAddress rs1 imm) w (s.readReg rs2) with
  | error f => simp [storeTo_fault.2 access]
  | ok u => simp [storeTo_next.2 ⟨u, access, rfl⟩]

theorem branchIf_ne_refused (cond : Word → Word → Bool) (rs1 rs2 : Reg) (imm : Int) (s : State) (r : Refusal) :
    branchIf cond rs1 rs2 imm s ≠ .refused r := by
  rw [branchIf_eq]
  split <;> simp

theorem exec_ne_refused (i : Instr) (s : State) (r : Refusal) : exec i s ≠ .refused r := by
  cases i with
  | add | mul | sub | sll | srl | and | sllw | sraw =>
    simp [exec, execAdd, execMul, execSub, execSll, execSrl, execAnd, execSllw, execSraw, aluRegReg_ne_refused]
  | addi | srli => simp [exec, execAddi, execSrli, aluReg_ne_refused]
  | jalr rs1 => simp [exec, execJalr_eq]
  | jal rd imm => simp [exec, execJal_eq]
  | beq | bne | blt | bge => simp [exec, execBeq, execBne, execBlt, execBge, branchIf_ne_refused]
  | sb | sw | sd => simp [exec, execSb, execSw, execSd, storeTo_ne_refused]
  | lb | lw | ld => simp [exec, execLb, execLw, execLd, loadFrom_ne_refused]

/-- Only the executed instruction could make a step refuse: every other way out is a fault or a next state. -/
theorem step_refused {s : State} {r : Refusal} (h : step s = .refused r) : ∃ i, exec i s = .refused r := by
  unfold step at h
  split at h
  · cases h
  · split at h
    · cases h
    · split at h
      · cases h
      · split at h
        · exact ⟨_, h⟩
        · cases h

end Sys2Proof.Machine

namespace Sys2Proof.Proofs

open Sys2Proof.Machine

/-- Settles O2: each half of the law by the value of the sign bit, and the pattern bit by bit. -/
theorem signExtendPropagatesSignBit : Obligations.SignExtendPropagatesSignBit := by
  unfold Obligations.SignExtendPropagatesSignBit
  refine ⟨fun v start => ⟨signExtend_of_clear, fun bitSet => ?_, fun j hj => ?_⟩, by decide, by decide, by decide⟩
  · exact ⟨signExtend_neg_of_set bitSet, signExtend_of_set bitSet⟩
  · exact getLsbD_ofInt_signExtend v start hj

/-- Settles O18: a refusing step would run a refusing instruction, and none of the 22 refuses. -/
theorem stepNeverRefuses : Obligations.StepNeverRefuses := by
  unfold Obligations.StepNeverRefuses
  intro s r refuses
  obtain ⟨i, hi⟩ := step_refused refuses
  exact exec_ne_refused i s r hi

/-- Settles O1: the field's value, and R7's shift-back law bit by bit. -/
theorem extractBitsTakesField : Obligations.ExtractBitsTakesField := by
  unfold Obligations.ExtractBitsTakesField
  refine ⟨fun v start count inside => ⟨?_, ?_⟩, by decide⟩
  · exact extractBits_toNat v start count inside
  · exact extractBits_shiftLeft_eq_mask v start count inside

/-- Settles O3: a bit of a number is the parity of its quotient by the bit's weight. -/
theorem getBitReadsOneBit : Obligations.GetBitReadsOneBit := by
  unfold Obligations.GetBitReadsOneBit
  exact ⟨getBit_eq_true_iff, by decide⟩

end Sys2Proof.Proofs
end

section
/-! PROOF. What every instruction does, said once for all 22 of them: beside the tables of 10_state.md R23, R25 and R33
its whole effect is a fault, or new data memory and a value for its destination. -/

namespace Sys2Proof.Machine

open Sys2Proof.Claims

/-! ### The branch conditions and the classes as the tables state them -/

theorem signed64_eq_toInt (v : Word) : signed64 v = v.toInt := by
  rw [signed64, BitVec.toInt_eq_toNat_cond]
  split <;> split <;> omega

theorem condEq_iff (a b : Word) : condEq a b = true ↔ a = b := by
  simp [condEq, BitVec.toInt_inj]

theorem condNe_iff (a b : Word) : condNe a b = true ↔ a ≠ b := by
  simp [condNe, BitVec.toInt_inj]

theorem condLt_iff (a b : Word) : condLt a b = true ↔ signed64 a < signed64 b := by
  simp [condLt, signed64_eq_toInt]

theorem condGe_iff (a b : Word) : condGe a b = true ↔ signed64 b ≤ signed64 a := by
  simp [condGe, signed64_eq_toInt]

theorem classOf_ne_total (s : State) (i : Instr) : classOf s i ≠ .total := by
  cases i with
  | beq | bne | blt | bge => simp only [classOf]; split <;> decide
  | _ => simp [classOf]

/-! ### The state a completed instruction leaves -/

/-- The state after instruction `i` completes with data memory `m` and the value `v` for its destination: which register
that is, the counter and the new pc are those of the spec's tables. -/
def State.complete (s : State) (i : Instr) (m : Memory) (v : Word) : State :=
  ((({ s with mem := m }).writeReg ((destination i).getD 0) v).retire (classOf s i)).setPc
    (BitVec.ofInt 64 (nextPcOf s i))

theorem writeReg_regs (s : State) (r : Reg) (v : Word) :
    (s.writeReg r v).regs = if r = 0 then s.regs else s.regs.set r.val v r.isLt := by
  unfold State.writeReg; split <;> rfl

section
variable (s : State) (i : Instr) (m : Memory) (v : Word)

theorem complete_regs : (s.complete i m v).regs = (s.writeReg ((destination i).getD 0) v).regs := by
  simp [State.complete, writeReg_regs]

@[simp] theorem complete_pc : (s.complete i m v).pc = BitVec.ofInt 64 (nextPcOf s i) := by simp [State.complete]

@[simp] theorem complete_mem : (s.complete i m v).mem = m := by simp [State.complete]

@[simp] theorem complete_imem : (s.complete i m v).imem = s.imem := by simp [State.complete]

@[simp] theorem complete_ctr :
    (s.complete i m v).ctr = if s.instrEn then (s.ctr.bump .total).bump (classOf s i) else s.ctr := by
  simp [State.complete]

@[simp] theorem complete_instrEn : (s.complete i m v).instrEn = s.instrEn := by simp [State.complete]

@[simp] theorem complete_fatal : (s.complete i m v).fatal = s.fatal := by simp [State.complete]

@[simp] theorem complete_platform : (s.complete i m v).platform = s.platform := by simp [State.complete]

variable {i}

theorem complete_readReg_destination {rd : Reg} (dest : destination i = some rd) :
    (s.complete i m v).readReg rd = if rd = 0 then 0#64 else v := by
  rw [readReg_eq_of_regs_eq (complete_regs s i m v), dest, Option.getD_some]
  split
  · rename_i zero; rw [zero, readReg_zero]
  · rename_i nonzero; exact readReg_writeReg_same s v nonzero

theorem complete_readReg_other {r : Reg} (other : destination i ≠ some r) :
    (s.complete i m v).readReg r = s.readReg r := by
  rw [readReg_eq_of_regs_eq (complete_regs s i m v)]
  cases dest : destination i with
  | none => rfl
  | some rd => exact readReg_writeReg_other s v fun e => other (dest.trans (congrArg some e.symm))

end

/-! ### What an instruction may read -/

/-- The blocks agree on all that instruction `i` may read. -/
structure SameInputs (i : Instr) (s s' : State) : Prop where
  pc : s'.pc = s.pc
  mem : s'.mem = s.mem
  imem : s'.imem = s.imem
  platform : s'.platform = s.platform
  regs : ∀ r ∈ sources i, s'.readReg r = s.readReg r

section
variable {i : Instr} {s s' : State} (same : SameInputs i s s')
include same

theorem SameInputs.classOf_eq : classOf s' i = classOf s i := by
  have agree := same.regs
  cases i with
  | beq a b | bne a b | blt a b | bge a b =>
    simp only [classOf, agree a (by simp [sources]), agree b (by simp [sources])]
  | _ => rfl

theorem SameInputs.nextPcOf_eq : nextPcOf s' i = nextPcOf s i := by
  have agree := same.regs
  cases i with
  | beq a b | bne a b | blt a b | bge a b =>
    simp only [nextPcOf, same.pc, agree a (by simp [sources]), agree b (by simp [sources])]
  | jalr a => simp only [nextPcOf, agree a (by simp [sources])]
  | _ => simp only [nextPcOf, same.pc]

theorem SameInputs.effectiveAddress_eq {rs1 : Reg} (src : rs1 ∈ sources i) (imm : Int) :
    s'.effectiveAddress rs1 imm = s.effectiveAddress rs1 imm := by
  rw [State.effectiveAddress, State.effectiveAddress, same.regs rs1 src]

theorem SameInputs.load_eq (addr : Word) (w : Width) : s'.load addr w = s.load addr w := by
  rw [State.load, State.load, same.platform, same.mem]

theorem SameInputs.store_mem_eq (addr : Word) (w : Width) (v : Word) :
    (s'.store addr w v).map State.mem = (s.store addr w v).map State.mem := by
  rw [State.store, State.store, same.platform, same.mem, same.imem]
  split
  · rfl
  · split <;> rfl

end

/-! ### The effect of each shared body -/

/-- What instruction `i` answers when it finds a fault, or computes data memory and the value for its destination. -/
def State.answer (s : State) (i : Instr) : Except Fault (Memory × Word) → Result
  | .error f => .fault f
  | .ok (m, v) => .next (s.complete i m v)

/-- `effect` is what instruction `i` does beside its tables: it settles every outcome, it depends on the instruction's
inputs alone, and the memory it gives is canonical when the memory it found was. -/
structure Computes (i : Instr) (effect : State → Except Fault (Memory × Word)) : Prop where
  exec_eq : ∀ s, exec i s = s.answer i (effect s)
  reads : ∀ {s s'}, SameInputs i s s' → effect s' = effect s
  canonical : ∀ {s m v}, effect s = .ok (m, v) → Memory.wf s.platform s.mem = true → Memory.wf s.platform m = true

/-- The tables' entries of an instruction that goes on at `pc + 4`. -/
structure Sequential (i : Instr) (rd : Option Reg) (c : CounterName) : Prop where
  dest : destination i = rd
  cls : ∀ s, classOf s i = c
  pc : ∀ s, nextPcOf s i = s.pc.toNat + 4

theorem Sequential.complete_eq {i : Instr} {rd : Option Reg} {c : CounterName} (seq : Sequential i rd c) (s : State)
    (m : Memory) (v : Word) :
    s.complete i m v = ((({ s with mem := m }).writeReg (rd.getD 0) v).retire c).setPc (s.pc + 4#64) := by
  simp [State.complete, seq.dest, seq.cls, seq.pc, BitVec.ofInt_add]

theorem computes_aluRegReg {i : Instr} {op : Word → Word → Word} {rd rs1 rs2 : Reg}
    (runs : ∀ s, exec i s = aluRegReg op rd rs1 rs2 s) (src : sources i = [rs1, rs2])
    (seq : Sequential i (some rd) .alu) :
    Computes i fun s => .ok (s.mem, op (s.readReg rs1) (s.readReg rs2)) where
  exec_eq s := by rw [runs, aluRegReg_eq, State.answer, seq.complete_eq]; rfl
  reads same := by rw [same.mem, same.regs rs1 (by simp [src]), same.regs rs2 (by simp [src])]
  canonical computed wf := by cases computed; exact wf

theorem computes_aluReg {i : Instr} {op : Word → Word} {rd rs1 : Reg} (runs : ∀ s, exec i s = aluReg op rd rs1 s)
    (src : sources i = [rs1]) (seq : Sequential i (some rd) .alu) :
    Computes i fun s => .ok (s.mem, op (s.readReg rs1)) where
  exec_eq s := by rw [runs, aluReg_eq, State.answer, seq.complete_eq]; rfl
  reads same := by rw [same.mem, same.regs rs1 (by simp [src])]
  canonical computed wf := by cases computed; exact wf

theorem computes_loadFrom {i : Instr} {w : Width} {rd rs1 : Reg} {imm : Int}
    (runs : ∀ s, exec i s = loadFrom w rd rs1 imm s) (src : sources i = [rs1])
    (seq : Sequential i (some rd) .load) :
    Computes i fun s => (s.load (s.effectiveAddress rs1 imm) w).map fun v => (s.mem, v) where
  exec_eq s := by
    rw [runs]
    cases access : s.load (s.effectiveAddress rs1 imm) w with
    | error f => exact loadFrom_fault.2 access
    | ok v => exact loadFrom_next.2 ⟨v, access, seq.complete_eq s s.mem v⟩
  reads same := by rw [same.effectiveAddress_eq (by simp [src]), same.load_eq, same.mem]
  canonical {s m v} computed wf := by
    cases access : s.load (s.effectiveAddress rs1 imm) w with
    | error f => rw [access] at computed; cases computed
    | ok v => rw [access] at computed; cases computed; exact wf

theorem computes_storeTo {i : Instr} {w : Width} {rs1 rs2 : Reg} {imm : Int}
    (runs : ∀ s, exec i s = storeTo w rs1 rs2 imm s) (src : sources i = [rs1, rs2])
    (seq : Sequential i none .store) :
    Computes i fun s =>
      ((s.store (s.effectiveAddress rs1 imm) w (s.readReg rs2)).map State.mem).map fun m => (m, 0#64) where
  exec_eq s := by
    rw [runs]
    cases access : s.store (s.effectiveAddress rs1 imm) w (s.readReg rs2) with
    | error f => exact storeTo_fault.2 access
    | ok u =>
      refine storeTo_next.2 ⟨u, access, (seq.complete_eq s u.mem 0#64).trans ?_⟩
      obtain ⟨-, -, rfl⟩ := store_ok.1 access
      rfl
  reads same := by
    rw [same.effectiveAddress_eq (by simp [src]), same.regs rs2 (by simp [src]), same.store_mem_eq]
  canonical {s m v} computed wf := by
    cases access : s.store (s.effectiveAddress rs1 imm) w (s.readReg rs2) with
    | error f => rw [access] at computed; cases computed
    | ok u =>
      have kept : u.platform = s.platform := by obtain ⟨-, -, rfl⟩ := store_ok.1 access; rfl
      rw [access] at computed
      cases computed
      exact kept ▸ store_keeps_wf access wf

theorem computes_branchIf {i : Instr} {cond : Word → Word → Bool} {rs1 rs2 : Reg} {imm : Int}
    (runs : ∀ s, exec i s = branchIf cond rs1 rs2 imm s) (dest : destination i = none)
    (cls : ∀ s, classOf s i = if cond (s.readReg rs1) (s.readReg rs2) then .brTaken else .brNotTaken)
    (pc : ∀ s, nextPcOf s i = s.pc.toNat + if cond (s.readReg rs1) (s.readReg rs2) then imm else 4) :
    Computes i fun s => .ok (s.mem, 0#64) where
  exec_eq s := by
    rw [runs, branchIf_eq]
    split
    · rename_i taken
      simp [State.answer, State.complete, dest, cls, pc, taken, BitVec.ofInt_add]
    · rename_i not_taken
      simp [State.answer, State.complete, dest, cls, pc, not_taken, BitVec.ofInt_add]
  reads same := by rw [same.mem]
  canonical computed wf := by cases computed; exact wf

theorem computes_jalr (rs1 : Reg) : Computes (.jalr rs1) fun s => .ok (s.mem, 0#64) where
  exec_eq s := by
    rw [exec, execJalr_eq]
    simp [State.answer, State.complete, destination, classOf, nextPcOf]
  reads same := by rw [same.mem]
  canonical computed wf := by cases computed; exact wf

theorem computes_jal (rd : Reg) (imm : Int) : Computes (.jal rd imm) fun s => .ok (s.mem, s.pc + 4#64) where
  exec_eq s := by
    rw [exec, execJal_eq]
    simp [State.answer, State.complete, destination, classOf, nextPcOf, BitVec.ofInt_add]
  reads same := by rw [same.mem, same.pc]
  canonical computed wf := by cases computed; exact wf

theorem exists_computes (i : Instr) : ∃ effect, Computes i effect := by
  cases i with
  | add | mul | sub | sll | srl | and | sllw | sraw =>
    exact ⟨_, computes_aluRegReg (fun _ => by
      simp only [exec, execAdd, execMul, execSub, execSll, execSrl, execAnd, execSllw, execSraw]; rfl)
      rfl ⟨rfl, fun _ => rfl, fun _ => rfl⟩⟩
  | addi | srli =>
    exact ⟨_, computes_aluReg (fun _ => by simp only [exec, execAddi, execSrli]; rfl)
      rfl ⟨rfl, fun _ => rfl, fun _ => rfl⟩⟩
  | lb | lw | ld => exact ⟨_, computes_loadFrom (fun _ => rfl) rfl ⟨rfl, fun _ => rfl, fun _ => rfl⟩⟩
  | sb | sw | sd => exact ⟨_, computes_storeTo (fun _ => rfl) rfl ⟨rfl, fun _ => rfl, fun _ => rfl⟩⟩
  | beq | bne | blt | bge =>
    refine ⟨_, computes_branchIf (fun _ => rfl) rfl (fun _ => ?_) (fun _ => ?_)⟩
    · simp only [classOf, condEq_iff, condNe_iff, condLt_iff, condGe_iff]
    · simp only [nextPcOf, condEq_iff, condNe_iff, condLt_iff, condGe_iff]
  | jalr rs1 => exact ⟨_, computes_jalr rs1⟩
  | jal rd imm => exact ⟨_, computes_jal rd imm⟩

/-! ### What every instruction does -/

/-- An instruction that completes changes its destination, data memory, its counters and the pc alone; it keeps memory
canonical; and where its inputs are the same it completes with the same memory and value. -/
theorem exec_next {i : Instr} {s t : State} (executed : exec i s = .next t) :
    ∃ m v, t = s.complete i m v ∧ (Memory.wf s.platform s.mem = true → Memory.wf s.platform m = true) ∧
      ∀ s', SameInputs i s s' → exec i s' = .next (s'.complete i m v) := by
  obtain ⟨effect, computes⟩ := exists_computes i
  rw [computes.exec_eq] at executed
  cases computed : effect s with
  | error f => rw [computed] at executed; cases executed
  | ok result =>
    obtain ⟨m, v⟩ := result
    rw [computed] at executed
    cases executed
    refine ⟨m, v, rfl, computes.canonical computed, fun s' same => ?_⟩
    rw [computes.exec_eq, computes.reads same, computed, State.answer]

/-- Where an instruction's inputs are the same it stops with the same fault. -/
theorem exec_fault_of_sameInputs {i : Instr} {s s' : State} {f : Fault} (same : SameInputs i s s')
    (stopped : exec i s = .fault f) : exec i s' = .fault f := by
  obtain ⟨effect, computes⟩ := exists_computes i
  rw [computes.exec_eq] at stopped ⊢
  rw [computes.reads same]
  cases computed : effect s with
  | error g => rw [computed] at stopped; cases stopped; rfl
  | ok result => rw [computed] at stopped; cases stopped

/-! ### What a step does -/

theorem step_of_decoded {s : State} {iw : InstrWord} {i : Instr} (running : Running s) (fetched : Fetches s iw)
    (decoded : decodeWord iw = .ok i) : step s = exec i s := by
  obtain ⟨unlatched, not_at_stop⟩ := running
  unfold Fetches at fetched
  simp [step, unlatched, not_at_stop, fetched, decoded]

theorem step_of_unsupported {s : State} {iw : InstrWord} {u : Unsupported} (running : Running s)
    (fetched : Fetches s iw) (unsupported : decodeWord iw = .error u) : step s = .next (s.raiseFatal u iw) := by
  obtain ⟨unlatched, not_at_stop⟩ := running
  unfold Fetches at fetched
  simp [step, unlatched, not_at_stop, fetched, unsupported]

/-- The four ways a step stops: the latch, STOP_PC, a word outside the text, a fault of the instruction. -/
theorem step_fault {s : State} {f : Fault} :
    step s = .fault f ↔
      (∃ r, s.fatal = some r ∧ f = .fatalStop r) ∨
      (s.fatal = none ∧ s.pc = s.platform.stopPc ∧ f = .halted) ∨
      (Running s ∧ fetchWord s.imem s.pc = none ∧ f = .fetchUndefined s.pc) ∨
      (Running s ∧ ∃ iw i, Fetches s iw ∧ decodeWord iw = .ok i ∧ exec i s = .fault f) := by
  unfold step Running Fetches
  split
  · rename_i r latched; simp [latched, eq_comm]
  · rename_i unlatched
    split
    · rename_i at_stop; simp [unlatched, at_stop, eq_comm]
    · rename_i not_at_stop
      split
      · rename_i unfetched; simp [unlatched, not_at_stop, unfetched, eq_comm]
      · rename_i iw fetched
        split
        · rename_i i decoded; simp [unlatched, not_at_stop, fetched, decoded]
        · rename_i u unsupported; simp [unlatched, not_at_stop, fetched, unsupported]

theorem step_next_fixed {s t : State} (stepped : step s = .next t) :
    t.imem = s.imem ∧ t.instrEn = s.instrEn ∧ t.platform = s.platform := by
  obtain ⟨-, -, iw, -, ⟨i, -, executed⟩ | ⟨u, -, rfl⟩⟩ := step_next stepped
  · obtain ⟨m, v, rfl, -, -⟩ := exec_next executed
    simp
  · simp

end Sys2Proof.Machine
end

section
/-! PROOF. The statements of 10_state.md: the invariant, what influences what, the canonical memory, reset. -/

namespace Sys2Proof.Machine

open Sys2Proof.Claims

/-! ### Run status (R38) -/

theorem status_eq_fatal {s : State} : s.status = .fatal ↔ s.fatal ≠ none := by
  unfold State.status
  split
  · rename_i r latched; simp [latched]
  · rename_i unlatched; split <;> simp [unlatched]

theorem status_eq_halted {s : State} : s.status = .halted ↔ s.fatal = none ∧ s.pc = s.platform.stopPc := by
  unfold State.status
  split
  · rename_i r latched; simp [latched]
  · rename_i unlatched; split <;> rename_i at_stop <;> simp [unlatched, at_stop]

theorem status_eq_running {s : State} : s.status = .running ↔ Running s := by
  unfold State.status Running
  split
  · rename_i r latched; simp [latched]
  · rename_i unlatched; split <;> rename_i at_stop <;> simp [unlatched, at_stop]

/-! ### Counters and the toggle influence nothing (R33) -/

theorem State.eq_of_fields_eq {s t : State} (regs : s.regs = t.regs) (pc : s.pc = t.pc) (mem : s.mem = t.mem)
    (imem : s.imem = t.imem) (ctr : s.ctr = t.ctr) (instrEn : s.instrEn = t.instrEn) (fatal : s.fatal = t.fatal)
    (platform : s.platform = t.platform) : s = t := by
  cases s; cases t; simp_all

theorem sameInputs_counters (i : Instr) (s : State) (c : Counters) (e : Bool) :
    SameInputs i s { s with ctr := c, instrEn := e } := ⟨rfl, rfl, rfl, rfl, fun _ _ => rfl⟩

theorem complete_other_counters (s : State) (i : Instr) (m : Memory) (v : Word) (c : Counters) (e : Bool) :
    ∃ c', State.complete { s with ctr := c, instrEn := e } i m v =
      { s.complete i m v with ctr := c', instrEn := e } := by
  refine ⟨_, State.eq_of_fields_eq ?_ ?_ ?_ ?_ rfl ?_ ?_ ?_⟩
  · simp only [complete_regs, writeReg_regs]
  · simp only [complete_pc, (sameInputs_counters i s c e).nextPcOf_eq]
  all_goals simp

/-! ### The invariant -/

/-- Counting `total` and one other counter keeps `total` the sum of the others (R33, 40_step_and_dispatch.md R118). -/
theorem bump_keeps_sum {k : Counters} {c : CounterName} (not_total : c ≠ .total)
    (sum : k.total = k.alu + k.load + k.store + k.jump + k.brTaken + k.brNotTaken) :
    ((k.bump .total).bump c).total = ((k.bump .total).bump c).alu + ((k.bump .total).bump c).load +
      ((k.bump .total).bump c).store + ((k.bump .total).bump c).jump + ((k.bump .total).bump c).brTaken +
      ((k.bump .total).bump c).brNotTaken := by
  cases c with
  | total => exact absurd rfl not_total
  | _ => simp only [Counters.bump, sum]; ring

theorem latchSound_of_unlatched {s : State} (unlatched : s.fatal = none) : s.latchSound := by
  intro r latched
  rw [unlatched] at latched
  cases latched

theorem raiseFatal_latchSound {s : State} {iw : InstrWord} {u : Unsupported} (running : Running s)
    (fetched : Fetches s iw) (unsupported : decodeWord iw = .error u) : (s.raiseFatal u iw).latchSound := by
  intro r latched
  cases latched
  exact ⟨rfl, running.2, fetched, unsupported⟩

theorem complete_inv {s : State} {i : Instr} {m : Memory} {v : Word} (inv : s.Inv) (unlatched : s.fatal = none)
    (canonical : Memory.wf s.platform s.mem = true → Memory.wf s.platform m = true) : (s.complete i m v).Inv := by
  obtain ⟨slot_zero, found, sum, off, -⟩ := inv
  refine ⟨?_, ?_, ?_, fun disabled => ?_, latchSound_of_unlatched ?_⟩
  · simpa [complete_regs] using slot_zero
  · simpa using canonical found
  · rw [complete_ctr]
    split
    · exact bump_keeps_sum (classOf_ne_total s i) sum
    · exact sum
  · rw [complete_instrEn] at disabled
    rw [complete_ctr, disabled]
    exact off disabled
  · rw [complete_fatal, unlatched]

theorem raiseFatal_inv {s : State} {iw : InstrWord} {u : Unsupported} (inv : s.Inv) (running : Running s)
    (fetched : Fetches s iw) (unsupported : decodeWord iw = .error u) : (s.raiseFatal u iw).Inv := by
  obtain ⟨slot_zero, canonical, sum, off, -⟩ := inv
  exact ⟨slot_zero, canonical, sum, off, raiseFatal_latchSound running fetched unsupported⟩

theorem resetWith_inv (inp : ResetInputs) : (State.resetWith inp).Inv := by
  refine ⟨?_, Memory.wf_nil _, rfl, fun _ => rfl, latchSound_of_unlatched rfl⟩
  simp [State.resetWith, resetRegs]

/-! ### The canonical form of memory determines its data (R31) -/

/-- A rising list is determined by what is listed at each address. -/
theorem risingCells_ext {m₁ m₂ : List Host.Cell} (h₁ : risingCells m₁ = true) (h₂ : risingCells m₂ = true)
    (same : ∀ a, lookupCell m₁ a = lookupCell m₂ a) : m₁ = m₂ := by
  induction m₁ generalizing m₂ with
  | nil =>
    cases m₂ with
    | nil => rfl
    | cons y rest => simpa [lookupCell] using same y.1
  | cons x rest₁ ih =>
    cases m₂ with
    | nil => simpa [lookupCell] using same x.1
    | cons y rest₂ =>
      obtain ⟨x_lt, rising₁⟩ := (risingCells_cons x rest₁).1 h₁
      obtain ⟨y_lt, rising₂⟩ := (risingCells_cons y rest₂).1 h₂
      have x_listed : lookupCell (y :: rest₂) x.1 = some x.2 := by rw [← same]; simp [lookupCell]
      have y_listed : lookupCell (x :: rest₁) y.1 = some y.2 := by rw [same]; simp [lookupCell]
      have same_address : x.1 = y.1 := by
        rcases List.mem_cons.1 (mem_of_lookupCell x_listed) with e | x_mem
        · exact congrArg Prod.fst e
        · rcases List.mem_cons.1 (mem_of_lookupCell y_listed) with e | y_mem
          · exact (congrArg Prod.fst e).symm
          · exact absurd (x_lt _ y_mem) (Nat.lt_asymm (y_lt _ x_mem))
      obtain rfl : x = y := Prod.ext same_address (by simpa [lookupCell, same_address] using x_listed.symm)
      refine congrArg _ (ih rising₁ rising₂ fun a => ?_)
      by_cases ha : x.1 = a
      · rw [← ha, lookupCell_eq_none x_lt, lookupCell_eq_none y_lt]
      · simpa [lookupCell, ha] using same a

/-- Canonical memory lists exactly the bytes that read otherwise than they would unlisted. -/
theorem Memory.lookupCell_eq_some_iff {p : Platform} {m : Memory} (canonical : Memory.wf p m = true) {a : Nat}
    {b : Byte} :
    lookupCell m a = some b ↔ Memory.readByte p m a = some b ∧ Platform.initialByte p a ≠ some b := by
  constructor
  · intro listed
    obtain ⟨defined, differs⟩ := ((Memory.wf_iff p m).1 canonical).2 _ (mem_of_lookupCell listed)
    obtain ⟨d, initial⟩ := Option.ne_none_iff_exists'.1 defined
    exact ⟨by simp [Memory.readByte, initial, listed], differs⟩
  · rintro ⟨reads, differs⟩
    unfold Memory.readByte at reads
    split at reads
    · cases reads
    · rename_i d initial
      cases listed : lookupCell m a with
      | none =>
        rw [listed] at reads
        exact absurd (initial.trans reads) differs
      | some b' => simpa [listed] using reads

/-! ### Reset (R37, 70_reset_and_hazards.md R230) -/

theorem resetWith_readReg_other (inp : ResetInputs) {r : Reg} (other : r ∉ ([1, 2, 10, 11, 12, 13] : List Reg)) :
    (State.resetWith inp).readReg r = 0#64 := by
  simp only [List.mem_cons, List.not_mem_nil, or_false, not_or, Fin.ext_iff] at other
  simp (disch := omega) [State.readReg, State.resetWith, resetRegs, Vector.getElem_set_ne]

theorem resetWith_readReg_sp (inp : ResetInputs) :
    (State.resetWith inp).readReg 2 = inp.platform.stackBase + BitVec.ofNat 64 inp.platform.stackSize := rfl

theorem resetWith_status (inp : ResetInputs) :
    (State.resetWith inp).status = if inp.entry = inp.platform.stopPc then .halted else .running := rfl

theorem resetWith_readByte (inp : ResetInputs) (a : Nat) :
    (State.resetWith inp).readByte a = Platform.initialByte inp.platform a := by
  simp only [State.readByte, State.resetWith, Memory.readByte, lookupCell]
  split <;> rename_i initial <;> simp [initial]

theorem regionByte_eq_none {r : DataRegion} {a : Nat} :
    regionByte r a = none ↔ ¬(r.base.toNat ≤ a ∧ a < r.base.toNat + r.bytes.length) := by
  unfold regionByte
  split
  · rename_i above; rw [List.getElem?_eq_none_iff]; omega
  · rename_i below; simp [below]

theorem regionByte_base_add (r : DataRegion) (k : Nat) : regionByte r (r.base.toNat + k) = r.bytes[k]? := by
  simp [regionByte]

theorem initialByte_of_no_region {p : Platform} {a : Nat} (bound : a < 2 ^ 64)
    (outside : ∀ d ∈ p.dataRegions, regionByte d a = none) :
    Platform.initialByte p a = if inStack p a then some 0#8 else none := by
  rw [Platform.initialByte, if_pos bound, List.findSome?_eq_none_iff.2 outside]

theorem initialByte_of_first_region {p : Platform} {a : Nat} {b : Byte} {before after : List DataRegion}
    {d : DataRegion} (bound : a < 2 ^ 64) (regions : p.dataRegions = before ++ d :: after)
    (first : ∀ e ∈ before, regionByte e a = none) (holds : regionByte d a = some b) :
    Platform.initialByte p a = some b := by
  rw [Platform.initialByte, if_pos bound]
  simp [regions, List.findSome?_append, List.findSome?_eq_none_iff.2 first, holds]

end Sys2Proof.Machine

namespace Sys2Proof.Proofs

open Sys2Proof.Machine Sys2Proof.Claims

/-- Settles O52: a completed instruction keeps each part of the invariant, and the latch is set soundly. -/
theorem stepKeepsTheInvariant : Obligations.StepKeepsTheInvariant := by
  unfold Obligations.StepKeepsTheInvariant
  intro s t inv stepped
  obtain ⟨unlatched, not_at_stop, iw, fetched, ⟨i, -, executed⟩ | ⟨u, unsupported, rfl⟩⟩ := step_next stepped
  · obtain ⟨m, v, rfl, canonical, -⟩ := exec_next executed
    exact complete_inv inv unlatched canonical
  · exact raiseFatal_inv inv ⟨unlatched, not_at_stop⟩ fetched unsupported

/-- Settles O54: counters and toggle are no inputs of any instruction, nor of the tests before it. -/
theorem countersInfluenceNothing : Obligations.CountersInfluenceNothing := by
  unfold Obligations.CountersInfluenceNothing
  intro s c e
  have same (i : Instr) := sameInputs_counters i s c e
  refine ⟨fun t stepped => ?_, fun f stopped => step_fault.2 ?_⟩
  · obtain ⟨unlatched, not_at_stop, iw, fetched, ⟨i, decoded, executed⟩ | ⟨u, unsupported, rfl⟩⟩ := step_next stepped
    · obtain ⟨m, v, rfl, -, elsewhere⟩ := exec_next executed
      obtain ⟨c', completes⟩ := complete_other_counters s i m v c e
      have running : Running { s with ctr := c, instrEn := e } := ⟨unlatched, not_at_stop⟩
      exact ⟨c', by rw [step_of_decoded running fetched decoded, elsewhere _ (same i), completes]⟩
    · exact ⟨c, step_of_unsupported ⟨unlatched, not_at_stop⟩ fetched unsupported⟩
  · obtain latched | at_stop | unfetched | ⟨running, iw, i, fetched, decoded, stopped⟩ := step_fault.1 stopped
    · exact .inl latched
    · exact .inr (.inl at_stop)
    · exact .inr (.inr (.inl unfetched))
    · exact .inr (.inr (.inr ⟨running, iw, i, fetched, decoded, exec_fault_of_sameInputs (same i) stopped⟩))

/-- Settles O46: the only register write of an instruction is that of its destination, and a write of x0 is none. -/
theorem registerZeroIsHardwired : Obligations.RegisterZeroIsHardwired := by
  unfold Obligations.RegisterZeroIsHardwired
  refine ⟨fun s v => ⟨readReg_zero s, fun r => by rw [writeReg_zero]⟩, fun i s t dest executed => ?_⟩
  obtain ⟨m, v, rfl, -, -⟩ := exec_next executed
  exact readReg_eq_of_regs_eq (by rw [complete_regs, dest, Option.getD_some, writeReg_zero])

/-- Settles O47: the pc of a completed instruction is the table's, and the latch leaves the pc. -/
theorem pcFollowsTheTable : Obligations.PcFollowsTheTable := by
  unfold Obligations.PcFollowsTheTable
  refine ⟨fun i s t executed => ?_, fun s t iw u fetched unsupported stepped => ?_⟩
  · obtain ⟨m, v, rfl, -, -⟩ := exec_next executed
    rw [complete_pc, BitVec.toNat_ofInt, Int.toNat_of_nonneg (Int.emod_nonneg _ (by decide))]
    rfl
  · obtain ⟨unlatched, not_at_stop, -⟩ := step_next stepped
    rw [step_of_unsupported ⟨unlatched, not_at_stop⟩ fetched unsupported] at stepped
    cases stepped
    exact raiseFatal_pc s u iw

/-- Settles O53: neither a completed instruction nor the latch writes them. -/
theorem stepsNeverChangeTextOrParameters : Obligations.StepsNeverChangeTextOrParameters := by
  unfold Obligations.StepsNeverChangeTextOrParameters
  exact fun s t stepped => step_next_fixed stepped

/-- Settles O55: both register files give the instruction the same inputs, so it computes the same memory and value. -/
theorem onlyListedRegistersAreReadOrWritten : Obligations.OnlyListedRegistersAreReadOrWritten := by
  unfold Obligations.OnlyListedRegistersAreReadOrWritten
  intro i s t regs agree executed
  have same : SameInputs i s { s with regs := regs } := ⟨rfl, rfl, rfl, rfl, agree⟩
  obtain ⟨m, v, rfl, -, elsewhere⟩ := exec_next executed
  refine ⟨_, elsewhere _ same, ?_, ?_, ?_, fun rd dest => ?_, fun r other => ⟨?_, ?_⟩⟩
  · rw [complete_pc, complete_pc, same.nextPcOf_eq]
  · rw [complete_mem, complete_mem]
  · rw [complete_ctr, complete_ctr, same.classOf_eq]
  · rw [complete_readReg_destination _ _ _ dest, complete_readReg_destination _ _ _ dest]
  · exact complete_readReg_other s m v other
  · exact complete_readReg_other _ m v other

/-- Settles O57: canonical memories that read alike list the same bytes, which determines a rising list. -/
theorem canonicalMemoryIsUnique : Obligations.CanonicalMemoryIsUnique := by
  unfold Obligations.CanonicalMemoryIsUnique
  intro p m₁ m₂ canonical₁ canonical₂ alike
  obtain ⟨rising₁, -⟩ := (Memory.wf_iff p m₁).1 canonical₁
  obtain ⟨rising₂, -⟩ := (Memory.wf_iff p m₂).1 canonical₂
  refine risingCells_ext rising₁ rising₂ fun a => Option.ext fun b => ?_
  rw [Memory.lookupCell_eq_some_iff canonical₁, Memory.lookupCell_eq_some_iff canonical₂, alike]

/-- Settles O14: the status by the latch and the pc, and a step that answers was taken by a running block. -/
theorem statusDecidesWhetherStepsExist : Obligations.StatusDecidesWhetherStepsExist := by
  unfold Obligations.StatusDecidesWhetherStepsExist
  intro s
  refine ⟨status_eq_fatal, status_eq_halted, status_eq_running, fun not_running t stepped => ?_⟩
  obtain ⟨unlatched, not_at_stop, -⟩ := step_next stepped
  exact not_running (status_eq_running.2 ⟨unlatched, not_at_stop⟩)

/-- Settles O50: the listed values hold by computation; unlisted registers and the two kinds of memory by their laws. -/
theorem resetLeavesTheListedValues : Obligations.ResetLeavesTheListedValues := by
  unfold Obligations.ResetLeavesTheListedValues
  intro inp s
  refine ⟨rfl, ?_, rfl, rfl, rfl, rfl, fun r other => resetWith_readReg_other inp other, rfl, rfl, rfl, rfl,
    fun k => by cases k <;> rfl, rfl, resetWith_status inp, fun a bound outside => ?_,
    fun before d after regions k inside bound first => ?_⟩
  · rw [resetWith_readReg_sp, BitVec.toNat_add, BitVec.toNat_ofNat, Nat.add_mod_mod]
  · rw [resetWith_readByte, initialByte_of_no_region bound fun d hd => regionByte_eq_none.2 (outside d hd)]
    simp [inStack]
  · rw [resetWith_readByte, List.getElem?_eq_getElem inside]
    refine initialByte_of_first_region bound regions (fun e he => regionByte_eq_none.2 (first e he)) ?_
    rw [regionByte_base_add, List.getElem?_eq_getElem inside]

/-- Settles O51: the registers, memory, counters and latch that reset leaves meet the invariant for every input. -/
theorem resetMeetsTheInvariant : Obligations.ResetMeetsTheInvariant := by
  unfold Obligations.ResetMeetsTheInvariant
  exact ⟨resetWith_inv Config.exampleInputs, resetWith_inv⟩

end Sys2Proof.Proofs
end

section
/-! PROOF. The statements of 20_memory.md: accesses and fetches through the bytes of the statements, the stops, and a
load from inside a store. -/

namespace Sys2Proof.Machine

open Sys2Proof.Claims

/-! ### Accesses in the statements' own words -/

theorem addrAt_eq_toNat (a : Word) (k : Nat) : addrAt a k = (a + BitVec.ofNat 64 k).toNat :=
  (toNat_add_ofNat a k).symm

theorem addrAt_add_ofNat (a : Word) (j k : Nat) : addrAt (a + BitVec.ofNat 64 j) k = addrAt a (j + k) := by
  rw [addrAt, toNat_add_ofNat, addrAt, Nat.mod_add_mod, Nat.add_assoc]

theorem readBytes_eq_none_iff {s : State} {ea : Word} {n : Nat} :
    Memory.readBytes s.platform s.mem ea n = none ↔ SomeUndefined s ea n := by
  simp only [Memory.readBytes_eq_none, SomeUndefined, State.readByte, addrAt_eq_toNat]

theorem hitsText_iff {s : State} {ea : Word} {n : Nat} : hitsText s.imem ea n = true ↔ SomeText s ea n := by
  simp only [hitsText_eq_true, SomeText, addrAt_eq_toNat]

theorem readByte_eq_none_iff {s : State} {a : Nat} :
    s.readByte a = none ↔ Platform.initialByte s.platform a = none := by
  simp only [← Option.not_isSome_iff_eq_none, State.readByte, Memory.readByte_isSome]

/-! ### The stops of a load or store -/

theorem loadFrom_fault_iff {w : Width} {rd rs1 : Reg} {imm : Int} {s : State} {f : Fault} :
    loadFrom w rd rs1 imm s = .fault f ↔
      f = .memUndefined (s.effectiveAddress rs1 imm) w.bytes ∧
        SomeUndefined s (s.effectiveAddress rs1 imm) w.bytes := by
  rw [loadFrom_fault, load_error, readBytes_eq_none_iff]

theorem storeTo_fault_iff {w : Width} {rs1 rs2 : Reg} {imm : Int} {s : State} {f : Fault} :
    storeTo w rs1 rs2 imm s = .fault f ↔
      (f = .memUndefined (s.effectiveAddress rs1 imm) w.bytes ∧
        SomeUndefined s (s.effectiveAddress rs1 imm) w.bytes) ∨
      (f = .storeToText (s.effectiveAddress rs1 imm) ∧ ¬SomeUndefined s (s.effectiveAddress rs1 imm) w.bytes ∧
        SomeText s (s.effectiveAddress rs1 imm) w.bytes) := by
  rw [storeTo_fault, store_error, ne_eq, readBytes_eq_none_iff, hitsText_iff]

theorem loadStops {mk : Reg → Reg → Int → Instr} (w : Width)
    (runs : ∀ rd rs1 imm s, exec (mk rd rs1 imm) s = loadFrom w rd rs1 imm s) : LoadStops mk w.bytes := by
  intro rd rs1 imm s undefined
  rw [runs]
  exact loadFrom_fault_iff.2 ⟨rfl, undefined⟩

theorem storeStops {mk : Reg → Reg → Int → Instr} (w : Width)
    (runs : ∀ rs1 rs2 imm s, exec (mk rs1 rs2 imm) s = storeTo w rs1 rs2 imm s) : StoreStops mk w.bytes := by
  intro rs1 rs2 imm s undefined
  rw [runs]
  exact storeTo_fault_iff.2 (.inl ⟨rfl, undefined⟩)

theorem storeStopsOnText {mk : Reg → Reg → Int → Instr} (w : Width)
    (runs : ∀ rs1 rs2 imm s, exec (mk rs1 rs2 imm) s = storeTo w rs1 rs2 imm s) : StoreStopsOnText mk w.bytes := by
  intro rs1 rs2 imm s defined text
  rw [runs]
  exact storeTo_fault_iff.2 (.inr ⟨rfl, defined, text⟩)

/-! ### What a fault of an instruction means, and text apart from memory -/

/-- The bytes that make an access stop with this fault; the other faults are no access's. -/
def AccessStops (s : State) : Fault → Prop
  | .memUndefined ea n => SomeUndefined s ea n
  | .storeToText ea => ∃ n, ¬SomeUndefined s ea n ∧ SomeText s ea n
  | .halted | .fatalStop _ | .fetchUndefined _ => False

theorem loadFrom_accessStops {w : Width} {rd rs1 : Reg} {imm : Int} {s : State} {f : Fault}
    (stopped : loadFrom w rd rs1 imm s = .fault f) : AccessStops s f := by
  obtain ⟨rfl, undefined⟩ := loadFrom_fault_iff.1 stopped
  exact undefined

theorem storeTo_accessStops {w : Width} {rs1 rs2 : Reg} {imm : Int} {s : State} {f : Fault}
    (stopped : storeTo w rs1 rs2 imm s = .fault f) : AccessStops s f := by
  obtain ⟨rfl, undefined⟩ | ⟨rfl, defined, text⟩ := storeTo_fault_iff.1 stopped
  · exact undefined
  · exact ⟨w.bytes, defined, text⟩

theorem branchIf_ne_fault (cond : Word → Word → Bool) (rs1 rs2 : Reg) (imm : Int) (s : State) (f : Fault) :
    branchIf cond rs1 rs2 imm s ≠ .fault f := by
  rw [branchIf_eq]
  split <;> simp

/-- Only the loads and stores stop, and only on the bytes of their access. -/
theorem exec_fault {i : Instr} {s : State} {f : Fault} (stopped : exec i s = .fault f) : AccessStops s f := by
  cases i with
  | add | mul | sub | sll | srl | and | sllw | sraw =>
    simp [exec, execAdd, execMul, execSub, execSll, execSrl, execAnd, execSllw, execSraw, aluRegReg_eq] at stopped
  | addi | srli => simp [exec, execAddi, execSrli, aluReg_eq] at stopped
  | jalr rs1 => simp [exec, execJalr_eq] at stopped
  | jal rd imm => simp [exec, execJal_eq] at stopped
  | beq | bne | blt | bge => exact absurd stopped (branchIf_ne_fault _ _ _ _ _ _)
  | sb | sw | sd => exact storeTo_accessStops stopped
  | lb | lw | ld => exact loadFrom_accessStops stopped

theorem initialByte_eq_none_of_textApart {t : Text} {p : Platform} (apart : textApart t p = true) {a : Nat}
    (text : lookupCell t a ≠ none) : Platform.initialByte p a = none := by
  obtain ⟨b, listed⟩ := Option.ne_none_iff_exists'.1 text
  exact of_decide_eq_true (List.all_eq_true.1 apart _ (mem_of_lookupCell listed))

/-- With the text apart from defined memory, an access that meets text meets an undefined byte. -/
theorem someUndefined_of_textApart {s : State} {ea : Word} {n : Nat} (apart : textApart s.imem s.platform = true)
    (text : SomeText s ea n) : SomeUndefined s ea n := by
  obtain ⟨k, inside, listed⟩ := text
  exact ⟨k, inside, readByte_eq_none_iff.2 (initialByte_eq_none_of_textApart apart listed)⟩

/-! ### Fetch -/

theorem fetchWord_of_bytes {t : Text} {a : Word} {b0 b1 b2 b3 : Byte} (h0 : lookupCell t (addrAt a 0) = some b0)
    (h1 : lookupCell t (addrAt a 1) = some b1) (h2 : lookupCell t (addrAt a 2) = some b2)
    (h3 : lookupCell t (addrAt a 3) = some b3) : fetchWord t a = some (wordOfBytes [b0, b1, b2, b3]) := by
  refine fetchWord_eq_some.2 ⟨_, textBytes_eq_some.2 ⟨rfl, fun k hk => ?_⟩, rfl⟩
  rw [← addrAt_eq_toNat]
  match k, hk with
  | 0, _ => exact h0
  | 1, _ => exact h1
  | 2, _ => exact h2
  | 3, _ => exact h3

theorem toNat_wordOfBytes (b0 b1 b2 b3 : Byte) :
    (wordOfBytes [b0, b1, b2, b3]).toNat =
      b0.toNat + 2 ^ 8 * b1.toNat + 2 ^ 16 * b2.toNat + 2 ^ 24 * b3.toNat := by
  have fits : leValue [b0, b1, b2, b3] < 2 ^ 32 := (leValue_lt _).trans_eq (by simp)
  rw [wordOfBytes, BitVec.toNat_ofNat, Nat.mod_eq_of_lt fits]
  simp only [leValue]
  omega

theorem fetchWord_eq_none_iff {t : Text} {a : Word} :
    fetchWord t a = none ↔ ∃ k < 4, lookupCell t (addrAt a k) = none := by
  simp only [fetchWord_eq_none, addrAt_eq_toNat]

/-! ### Bytes stored and bytes loaded -/

theorem holdsBytes_of_mem_eq {s t : State} {ea : Word} {n : Nat} {b : Nat → Byte} (mem : t.mem = s.mem)
    (platform : t.platform = s.platform) (holds : HoldsBytes s ea n b) : HoldsBytes t ea n b :=
  fun k inside => (readByte_eq_of_mem_eq mem platform _).trans (holds k inside)

theorem holdsBytes_offset {s : State} {ea : Word} {n m j : Nat} {b : Nat → Byte} (holds : HoldsBytes s ea n b)
    (inside : j + m ≤ n) : HoldsBytes s (ea + BitVec.ofNat 64 j) m fun k => b (j + k) := by
  intro k hk
  rw [addrAt_add_ofNat]
  exact holds (j + k) (by omega)

/-- The `k`-th byte of a register in the two spellings. -/
theorem extractLsb'_byte (v : Word) (k : Nat) : v.extractLsb' (8 * k) 8 = BitVec.ofNat 8 (v.toNat / 256 ^ k) := by
  rw [BitVec.extractLsb', Nat.shiftRight_eq_div_pow, Nat.pow_mul]

theorem store_holdsBytes {s t : State} {ea : Word} {w : Width} {v : Word} (stored : s.store ea w v = .ok t) :
    HoldsBytes t ea w.bytes fun k => v.extractLsb' (8 * k) 8 := by
  obtain ⟨all_defined, -, rfl⟩ := store_ok.1 stored
  have small : w.bytes ≤ 2 ^ 64 := by cases w <;> decide
  have defined : ∀ k < w.bytes, Platform.initialByte s.platform (ea + BitVec.ofNat 64 k).toNat ≠ none :=
    fun k hk undefined => all_defined <| readBytes_eq_none_iff.2
      ⟨k, hk, readByte_eq_none_iff.2 ((addrAt_eq_toNat ea k).symm ▸ undefined)⟩
  rw [← length_leBytes w.bytes v.toNat] at small defined
  intro k hk
  rw [addrAt_eq_toNat, State.readByte, Memory.readByte_writeBytes_at _ small defined (by simpa using hk),
    getElem?_leBytes _ hk, ← extractLsb'_byte]

theorem storeTo_holdsBytes {w : Width} {rs1 rs2 : Reg} {imm : Int} {s t : State}
    (completed : storeTo w rs1 rs2 imm s = .next t) :
    HoldsBytes t (s.effectiveAddress rs1 imm) w.bytes fun k => (s.readReg rs2).extractLsb' (8 * k) 8 := by
  obtain ⟨u, stored, rfl⟩ := storeTo_next.1 completed
  exact holdsBytes_of_mem_eq (by simp) (by simp) (store_holdsBytes stored)

theorem load_of_holdsBytes {s : State} {ea : Word} {w : Width} {b : Nat → Byte} (holds : HoldsBytes s ea w.bytes b) :
    s.load ea w = .ok (BitVec.ofNat 64 (leValue ((List.range w.bytes).map b))) := by
  refine load_ok.2 ⟨_, Memory.readBytes_eq_some.2 ⟨by simp, fun k hk => ?_⟩, rfl⟩
  rw [← addrAt_eq_toNat, ← State.readByte, holds k hk]
  simp [hk]

/-- The bytes of a register from byte `j` on, as a number. -/
theorem leValue_bytes_from (v : Word) (j m : Nat) :
    leValue ((List.range m).map fun k => v.extractLsb' (8 * (j + k)) 8) = v.toNat / 2 ^ (8 * j) % 2 ^ (8 * m) := by
  have bytes : (List.range m).map (fun k => v.extractLsb' (8 * (j + k)) 8) = leBytes m (v.toNat / 256 ^ j) := by
    refine List.ext_getElem (by simp) fun k hk _ => ?_
    have hk : k < m := by simpa using hk
    rw [List.getElem_map, List.getElem_range, extractLsb'_byte, ← Option.some_inj, ← List.getElem?_eq_getElem,
      getElem?_leBytes _ hk, Nat.div_div_eq_div_mul, Nat.pow_add]
  rw [bytes, leValue_leBytes, Nat.pow_mul, Nat.pow_mul]

theorem regTakes_of_regs_eq {s t : State} {rd : Reg} {v : Word} (regs : t.regs = (s.writeReg rd v).regs) :
    RegTakes s t rd v := by
  refine ⟨readReg_zero t, fun nonzero => ?_, fun r other => ?_⟩
  · rw [readReg_eq_of_regs_eq regs, readReg_writeReg_same s v nonzero]
  · rw [readReg_eq_of_regs_eq regs, readReg_writeReg_other s v other]

/-- A load inside the bytes of a completed store takes the register's bytes from its offset on. -/
theorem readsBack {st ld : Reg → Reg → Int → Instr} (wide narrow : Width)
    (stores : ∀ rs1 rs2 imm s, exec (st rs1 rs2 imm) s = storeTo wide rs1 rs2 imm s)
    (loads : ∀ rd rs1 imm s, exec (ld rd rs1 imm) s = loadFrom narrow rd rs1 imm s) :
    ReadsBack st ld wide.bytes narrow.bytes := by
  intro s t rs1 rs2 imm stored rd rb imm' j inside address
  rw [stores] at stored
  have loaded := load_of_holdsBytes (holdsBytes_offset (storeTo_holdsBytes stored) inside)
  rw [leValue_bytes_from, ← address] at loaded
  exact ⟨_, (loads rd rb imm' t).trans (loadFrom_next.2 ⟨_, loaded, rfl⟩), regTakes_of_regs_eq (by simp)⟩

end Sys2Proof.Machine

namespace Sys2Proof.Proofs

open Sys2Proof.Machine Sys2Proof.Claims

/-- Settles O16: the four bytes are the fetched word's, and a missing one makes the fetch and so the step stop. -/
theorem fetchReadsFourTextBytes : Obligations.FetchReadsFourTextBytes := by
  unfold Obligations.FetchReadsFourTextBytes
  refine ⟨fun t a b0 b1 b2 b3 h0 h1 h2 h3 => ?_, fun s running outside => ?_⟩
  · exact ⟨_, fetchWord_of_bytes h0 h1 h2 h3, toNat_wordOfBytes b0 b1 b2 b3⟩
  · exact step_fault.2 (.inr (.inr (.inl ⟨running, fetchWord_eq_none_iff.2 outside, rfl⟩)))

/-- Settles O41: the three loads share one body, which stops on an undefined byte. -/
theorem loadOutsideMemoryStops : Obligations.LoadOutsideMemoryStops := by
  unfold Obligations.LoadOutsideMemoryStops
  exact ⟨loadStops .byte fun _ _ _ _ => rfl, loadStops .word fun _ _ _ _ => rfl, loadStops .double fun _ _ _ _ => rfl⟩

/-- Settles O42: the three stores share one body, which tests for undefined bytes first. -/
theorem storeOutsideMemoryStops : Obligations.StoreOutsideMemoryStops := by
  unfold Obligations.StoreOutsideMemoryStops
  exact ⟨storeStops .byte fun _ _ _ _ => rfl, storeStops .word fun _ _ _ _ => rfl,
    storeStops .double fun _ _ _ _ => rfl⟩

/-- Settles O43: the stores' body stops on text where every byte is defined. -/
theorem storeIntoTextStops : Obligations.StoreIntoTextStops := by
  unfold Obligations.StoreIntoTextStops
  exact ⟨storeStopsOnText .byte fun _ _ _ _ => rfl, storeStopsOnText .word fun _ _ _ _ => rfl,
    storeStopsOnText .double fun _ _ _ _ => rfl⟩

/-- Settles O45: the store leaves the register's bytes in memory, and the load reads those from its offset on. -/
theorem narrowLoadsSeeWideStores : Obligations.NarrowLoadsSeeWideStores := by
  unfold Obligations.NarrowLoadsSeeWideStores
  exact ⟨readsBack .double .word (fun _ _ _ _ => rfl) fun _ _ _ _ => rfl,
    readsBack .double .byte (fun _ _ _ _ => rfl) fun _ _ _ _ => rfl,
    readsBack .word .byte (fun _ _ _ _ => rfl) fun _ _ _ _ => rfl⟩

/-- Settles O56: StoreToText needs an access with every byte defined and one in the text, which the premise excludes. -/
theorem separateTextIsNeverStoredTo : Obligations.SeparateTextIsNeverStoredTo := by
  unfold Obligations.SeparateTextIsNeverStoredTo
  intro s apart a stopped
  obtain ⟨r, -, other⟩ | ⟨-, -, other⟩ | ⟨-, -, other⟩ | ⟨-, iw, i, -, -, stopped⟩ := step_fault.1 stopped
  · cases other
  · cases other
  · cases other
  · obtain ⟨n, defined, text⟩ := exec_fault stopped
    exact defined (someUndefined_of_textApart apart text)

end Sys2Proof.Proofs
end

section
/-! PROOF. The statements of 30_encoding.md: the encoder, the decoder and the rows of the opcode map agree.  Everything
rests on one equivalence: a word decodes to an instruction exactly when it matches the instruction's row and the
instruction's operands are the ones read from the word. -/

namespace Sys2Proof

open Sys2Proof.Claims

/-! ### The immediates: ranges, and the reading the statements use (R80 to R84) -/

theorem immI_eq_dispI (iw : InstrWord) : immI iw = dispI iw := immI_eq iw

theorem immS_eq_dispS (iw : InstrWord) : immS iw = dispS iw := immS_eq iw

theorem immB_eq_dispB (iw : InstrWord) : immB iw = dispB iw := immB_eq iw

theorem immJ_eq_dispJ (iw : InstrWord) : immJ iw = dispJ iw := immJ_eq iw

theorem immFits12_iff {v : Int} : immFits12 v = true ↔ -2048 ≤ v ∧ v ≤ 2047 := by
  simp [immFits12]

theorem immFitsB_iff {v : Int} : immFitsB v = true ↔ -4096 ≤ v ∧ v ≤ 4094 ∧ v % 2 = 0 := by
  simp [immFitsB, and_assoc]

theorem immFitsJ_iff {v : Int} : immFitsJ v = true ↔ -1048576 ≤ v ∧ v ≤ 1048574 ∧ v % 2 = 0 := by
  simp [immFitsJ, and_assoc]

theorem immFits12_toInt (x : BitVec 12) : immFits12 x.toInt = true := by
  have lower := x.le_toInt
  have upper := x.toInt_lt
  rw [immFits12_iff]; omega

/-- A 12-bit number above a 0 is an even 13-bit one. -/
theorem immFitsB_toInt_append (x : BitVec 12) : immFitsB (x ++ 0#1).toInt = true := by
  have lower := x.le_toInt
  have upper := x.toInt_lt
  rw [BitVec.toInt_append_zero, immFitsB_iff]; omega

/-- A 20-bit number above a 0 is an even 21-bit one. -/
theorem immFitsJ_toInt_append (x : BitVec 20) : immFitsJ (x ++ 0#1).toInt = true := by
  have lower := x.le_toInt
  have upper := x.toInt_lt
  rw [BitVec.toInt_append_zero, immFitsJ_iff]; omega

@[simp] theorem immFits12_immI (iw : InstrWord) : immFits12 (immI iw) = true := by
  rw [immI_eq]; exact immFits12_toInt _

@[simp] theorem immFits12_immS (iw : InstrWord) : immFits12 (immS iw) = true := by
  rw [immS_eq]; exact immFits12_toInt _

@[simp] theorem immFitsB_immB (iw : InstrWord) : immFitsB (immB iw) = true := by
  rw [immB_eq]; exact immFitsB_toInt_append _

@[simp] theorem immFitsJ_immJ (iw : InstrWord) : immFitsJ (immJ iw) = true := by
  rw [immJ_eq]; exact immFitsJ_toInt_append _

/-! ### A displacement that fits its format reads back from it -/

theorem immB_encodeB_of_fits {v : Int} (fits : immFitsB v = true) (rs2 rs1 : BitVec 5) (f3 : BitVec 3)
    (op : BitVec 7) : immB (encodeB (BitVec.ofInt 13 v) rs2 rs1 f3 op) = v := by
  obtain ⟨-, -, even⟩ := immFitsB_iff.1 fits
  rw [immB_encodeB _ _ _ _ _ (getLsbD_zero_of_even even), toInt_ofInt_of_fitsB fits]

theorem immJ_encodeJ_of_fits {v : Int} (fits : immFitsJ v = true) (rd : BitVec 5) (op : BitVec 7) :
    immJ (encodeJ (BitVec.ofInt 21 v) rd op) = v := by
  obtain ⟨-, -, even⟩ := immFitsJ_iff.1 fits
  rw [immJ_encodeJ _ _ _ (getLsbD_zero_of_even even), toInt_ofInt_of_fitsJ fits]

/-! ### A word is each format put together again from its own fields -/

/-- Putting a field of a word back where it was keeps the field's bits and clears the others. -/
theorem put_extractLsb' (iw : InstrWord) (lo n : Nat) :
    put (iw.extractLsb' lo n) lo = iw &&& put (BitVec.allOnes n) lo := by
  apply BitVec.eq_of_getLsbD_eq
  intro j hj
  rw [BitVec.getLsbD_and, getLsbD_put _ _ _ hj, getLsbD_put _ _ _ hj, BitVec.getLsbD_extractLsb',
    BitVec.getLsbD_allOnes]
  by_cases inField : lo ≤ j
  · simp [inField, Bool.and_comm]
  · simp [inField]

theorem put_zero (n lo : Nat) : put (0#n) lo = 0#32 := by simp [put]

@[simp] theorem regBits_rdOf (iw : InstrWord) : regBits (rdOf iw) = iw.extractLsb' 7 5 :=
  field_eq_extractLsb' _ _ _ (by decide)

@[simp] theorem regBits_rs1Of (iw : InstrWord) : regBits (rs1Of iw) = iw.extractLsb' 15 5 :=
  field_eq_extractLsb' _ _ _ (by decide)

@[simp] theorem regBits_rs2Of (iw : InstrWord) : regBits (rs2Of iw) = iw.extractLsb' 20 5 :=
  field_eq_extractLsb' _ _ _ (by decide)

theorem encodeR_fields (iw : InstrWord) :
    encodeR (funct7Of iw) (shamtOf iw) (regBits (rs1Of iw)) (funct3Of iw) (regBits (rdOf iw)) (opcodeOf iw) = iw := by
  simp only [encodeR, opcodeOf, funct3Of, funct7Of, shamtOf, field_eq_extractLsb', regBits_rdOf, regBits_rs1Of,
    put_extractLsb', ← BitVec.and_or_distrib_left]
  exact BitVec.and_allOnes

theorem encodeI_fields (iw : InstrWord) :
    encodeI (BitVec.ofInt 12 (immI iw)) (regBits (rs1Of iw)) (funct3Of iw) (regBits (rdOf iw)) (opcodeOf iw) = iw := by
  simp only [encodeI, opcodeOf, funct3Of, field_eq_extractLsb', regBits_rdOf, regBits_rs1Of, immI_eq,
    BitVec.ofInt_toInt, put_extractLsb', ← BitVec.and_or_distrib_left]
  exact BitVec.and_allOnes

theorem encodeS_fields (iw : InstrWord) :
    encodeS (BitVec.ofInt 12 (immS iw)) (regBits (rs2Of iw)) (regBits (rs1Of iw)) (funct3Of iw) (opcodeOf iw) = iw := by
  rw [immS_eq, BitVec.ofInt_toInt]
  apply BitVec.eq_of_getLsbD_eq
  intro j hj
  simp only [encodeS, opcodeOf, funct3Of, field_eq_extractLsb', regBits_rs1Of, regBits_rs2Of, BitVec.getLsbD_or,
    getLsbD_put _ _ _ hj, BitVec.getLsbD_extractLsb', BitVec.getLsbD_append]
  interval_cases j <;> simp

theorem encodeB_fields (iw : InstrWord) :
    encodeB (BitVec.ofInt 13 (immB iw)) (regBits (rs2Of iw)) (regBits (rs1Of iw)) (funct3Of iw) (opcodeOf iw) = iw := by
  rw [immB_eq, BitVec.ofInt_toInt]
  apply BitVec.eq_of_getLsbD_eq
  intro j hj
  simp only [encodeB, opcodeOf, funct3Of, field_eq_extractLsb', regBits_rs1Of, regBits_rs2Of, BitVec.getLsbD_or,
    getLsbD_put _ _ _ hj, BitVec.getLsbD_extractLsb', BitVec.getLsbD_append]
  interval_cases j <;> simp

theorem encodeJ_fields (iw : InstrWord) :
    encodeJ (BitVec.ofInt 21 (immJ iw)) (regBits (rdOf iw)) (opcodeOf iw) = iw := by
  rw [immJ_eq, BitVec.ofInt_toInt]
  apply BitVec.eq_of_getLsbD_eq
  intro j hj
  simp only [encodeJ, opcodeOf, field_eq_extractLsb', regBits_rdOf, BitVec.getLsbD_or,
    getLsbD_put _ _ _ hj, BitVec.getLsbD_extractLsb', BitVec.getLsbD_append]
  interval_cases j <;> simp

/-- A JALR word keeps opcode and `rs1` alone (R98). -/
theorem encodeI_rs1_opcode (iw : InstrWord) :
    encodeI 0#12 (regBits (rs1Of iw)) 0#3 0#5 (opcodeOf iw) = iw &&& 0x000F807F#32 := by
  simp only [encodeI, opcodeOf, field_eq_extractLsb', regBits_rs1Of, put_extractLsb', put_zero, BitVec.zero_or,
    BitVec.or_zero, ← BitVec.and_or_distrib_left]
  rfl

/-! ### What matching a row says of a word's fields (R91 to R98).  Put together from its own fields, a word keeps
under a row's mask the fields the mask covers, and those read back one by one. -/

theorem opcode_iff_masked (iw : InstrWord) (op : BitVec 7) :
    opcodeOf iw = op ↔ iw &&& 0x0000007F#32 = put op 0 := by
  have kept : iw &&& 0x0000007F#32 = put (opcodeOf iw) 0 := by
    simpa only [encodeI_fields] using encodeI_opcode (BitVec.ofInt 12 (immI iw)) (regBits (rs1Of iw)) (funct3Of iw)
      (regBits (rdOf iw)) (opcodeOf iw)
  rw [kept]
  refine ⟨congrArg (put · 0), fun same => ?_⟩
  simpa [extract_put_same] using congrArg (BitVec.extractLsb' 0 7) same

theorem opcode_funct3_iff_masked (iw : InstrWord) (op : BitVec 7) (f3 : BitVec 3) :
    opcodeOf iw = op ∧ funct3Of iw = f3 ↔ iw &&& 0x0000707F#32 = put f3 12 ||| put op 0 := by
  have kept : iw &&& 0x0000707F#32 = put (funct3Of iw) 12 ||| put (opcodeOf iw) 0 := by
    simpa only [encodeI_fields] using encodeI_masked (BitVec.ofInt 12 (immI iw)) (regBits (rs1Of iw)) (funct3Of iw)
      (regBits (rdOf iw)) (opcodeOf iw)
  rw [kept]
  refine ⟨fun ⟨sameOp, same3⟩ => by rw [sameOp, same3], fun same => ⟨?_, ?_⟩⟩
  · simpa [BitVec.extractLsb'_or, extract_put_same, extract_put_apart] using congrArg (BitVec.extractLsb' 0 7) same
  · simpa [BitVec.extractLsb'_or, extract_put_same, extract_put_apart] using congrArg (BitVec.extractLsb' 12 3) same

theorem opcode_funct3_funct7_iff_masked (iw : InstrWord) (op : BitVec 7) (f3 : BitVec 3) (f7 : BitVec 7) :
    opcodeOf iw = op ∧ funct3Of iw = f3 ∧ funct7Of iw = f7 ↔
      iw &&& 0xFE00707F#32 = put f7 25 ||| put f3 12 ||| put op 0 := by
  have kept : iw &&& 0xFE00707F#32 = put (funct7Of iw) 25 ||| put (funct3Of iw) 12 ||| put (opcodeOf iw) 0 := by
    simpa only [encodeR_fields] using encodeR_masked (funct7Of iw) (shamtOf iw) (regBits (rs1Of iw)) (funct3Of iw)
      (regBits (rdOf iw)) (opcodeOf iw)
  rw [kept]
  refine ⟨fun ⟨sameOp, same3, same7⟩ => by rw [sameOp, same3, same7], fun same => ⟨?_, ?_, ?_⟩⟩
  · simpa [BitVec.extractLsb'_or, extract_put_same, extract_put_apart] using congrArg (BitVec.extractLsb' 0 7) same
  · simpa [BitVec.extractLsb'_or, extract_put_same, extract_put_apart] using congrArg (BitVec.extractLsb' 12 3) same
  · simpa [BitVec.extractLsb'_or, extract_put_same, extract_put_apart] using congrArg (BitVec.extractLsb' 25 7) same

/-- The word matches the instruction's row of the opcode map. -/
def Instr.Matches (i : Instr) (iw : InstrWord) : Prop := iw &&& i.row.mask = i.row.value

/-- The tests the dispatch and the handlers put to a word before they answer the instruction. -/
def Instr.PassesTests : Instr → InstrWord → Prop
  | .add .., iw => opcodeOf iw = opOp ∧ funct3Of iw = 0b000#3 ∧ funct7Of iw = 0b0000000#7
  | .mul .., iw => opcodeOf iw = opOp ∧ funct3Of iw = 0b000#3 ∧ funct7Of iw = 0b0000001#7
  | .sub .., iw => opcodeOf iw = opOp ∧ funct3Of iw = 0b000#3 ∧ funct7Of iw = 0b0100000#7
  | .sll .., iw => opcodeOf iw = opOp ∧ funct3Of iw = 0b001#3 ∧ funct7Of iw = 0b0000000#7
  | .srl .., iw => opcodeOf iw = opOp ∧ funct3Of iw = 0b101#3 ∧ funct7Of iw = 0b0000000#7
  | .and .., iw => opcodeOf iw = opOp ∧ funct3Of iw = 0b111#3 ∧ funct7Of iw = 0b0000000#7
  | .jalr .., iw => opcodeOf iw = opJalr
  | .jal .., iw => opcodeOf iw = opJal
  | .addi .., iw => opcodeOf iw = opOpImm ∧ funct3Of iw = 0b000#3
  | .srli .., iw => opcodeOf iw = opOpImm ∧ funct3Of iw = 0b101#3 ∧ funct7Of iw = 0b0000000#7
  | .sllw .., iw => opcodeOf iw = opOp32 ∧ funct3Of iw = 0b001#3 ∧ funct7Of iw = 0b0000000#7
  | .sraw .., iw => opcodeOf iw = opOp32 ∧ funct3Of iw = 0b101#3 ∧ funct7Of iw = 0b0100000#7
  | .beq .., iw => opcodeOf iw = opBranch ∧ funct3Of iw = 0b000#3
  | .bne .., iw => opcodeOf iw = opBranch ∧ funct3Of iw = 0b001#3
  | .blt .., iw => opcodeOf iw = opBranch ∧ funct3Of iw = 0b100#3
  | .bge .., iw => opcodeOf iw = opBranch ∧ funct3Of iw = 0b101#3
  | .sb .., iw => opcodeOf iw = opStore ∧ funct3Of iw = 0b000#3
  | .sw .., iw => opcodeOf iw = opStore ∧ funct3Of iw = 0b010#3
  | .sd .., iw => opcodeOf iw = opStore ∧ funct3Of iw = 0b011#3
  | .lb .., iw => opcodeOf iw = opLoad ∧ funct3Of iw = 0b000#3
  | .lw .., iw => opcodeOf iw = opLoad ∧ funct3Of iw = 0b010#3
  | .ld .., iw => opcodeOf iw = opLoad ∧ funct3Of iw = 0b011#3

theorem Instr.passesTests_iff_matches (i : Instr) (iw : InstrWord) : i.PassesTests iw ↔ i.Matches iw := by
  cases i with
  | add | mul | sub | sll | srl | and | srli | sllw | sraw => exact opcode_funct3_funct7_iff_masked iw _ _ _
  | addi | beq | bne | blt | bge | sb | sw | sd | lb | lw | ld => exact opcode_funct3_iff_masked iw _ _
  | jalr | jal => exact opcode_iff_masked iw _

/-! ### What the decoder answers -/

/-- The instruction of the same row whose operands are read from the word. -/
def Instr.readFrom : Instr → InstrWord → Instr
  | .add .., iw => .add (rdOf iw) (rs1Of iw) (rs2Of iw)
  | .mul .., iw => .mul (rdOf iw) (rs1Of iw) (rs2Of iw)
  | .sub .., iw => .sub (rdOf iw) (rs1Of iw) (rs2Of iw)
  | .sll .., iw => .sll (rdOf iw) (rs1Of iw) (rs2Of iw)
  | .srl .., iw => .srl (rdOf iw) (rs1Of iw) (rs2Of iw)
  | .and .., iw => .and (rdOf iw) (rs1Of iw) (rs2Of iw)
  | .jalr .., iw => .jalr (rs1Of iw)
  | .jal .., iw => .jal (rdOf iw) (immJ iw)
  | .addi .., iw => .addi (rdOf iw) (rs1Of iw) (immI iw)
  | .srli .., iw => .srli (rdOf iw) (rs1Of iw) (shamtOf iw)
  | .sllw .., iw => .sllw (rdOf iw) (rs1Of iw) (rs2Of iw)
  | .sraw .., iw => .sraw (rdOf iw) (rs1Of iw) (rs2Of iw)
  | .beq .., iw => .beq (rs1Of iw) (rs2Of iw) (immB iw)
  | .bne .., iw => .bne (rs1Of iw) (rs2Of iw) (immB iw)
  | .blt .., iw => .blt (rs1Of iw) (rs2Of iw) (immB iw)
  | .bge .., iw => .bge (rs1Of iw) (rs2Of iw) (immB iw)
  | .sb .., iw => .sb (rs1Of iw) (rs2Of iw) (immS iw)
  | .sw .., iw => .sw (rs1Of iw) (rs2Of iw) (immS iw)
  | .sd .., iw => .sd (rs1Of iw) (rs2Of iw) (immS iw)
  | .lb .., iw => .lb (rdOf iw) (rs1Of iw) (immI iw)
  | .lw .., iw => .lw (rdOf iw) (rs1Of iw) (immI iw)
  | .ld .., iw => .ld (rdOf iw) (rs1Of iw) (immI iw)

theorem decodeWord_of_opOp {iw : InstrWord} (op : opcodeOf iw = opOp) : decodeWord iw = decodeR iw := by
  rw [decodeWord, op]; rfl

theorem decodeWord_of_opJalr {iw : InstrWord} (op : opcodeOf iw = opJalr) : decodeWord iw = .ok (.jalr (rs1Of iw)) := by
  rw [decodeWord, op]; rfl

theorem decodeWord_of_opOpImm {iw : InstrWord} (op : opcodeOf iw = opOpImm) : decodeWord iw = decodeIArith iw := by
  rw [decodeWord, op]; rfl

theorem decodeWord_of_opOp32 {iw : InstrWord} (op : opcodeOf iw = opOp32) : decodeWord iw = decodeW iw := by
  rw [decodeWord, op]; rfl

theorem decodeWord_of_opLoad {iw : InstrWord} (op : opcodeOf iw = opLoad) : decodeWord iw = decodeLoad iw := by
  rw [decodeWord, op]; rfl

theorem decodeWord_of_opBranch {iw : InstrWord} (op : opcodeOf iw = opBranch) : decodeWord iw = decodeBranch iw := by
  rw [decodeWord, op]; rfl

theorem decodeWord_of_opStore {iw : InstrWord} (op : opcodeOf iw = opStore) : decodeWord iw = decodeStore iw := by
  rw [decodeWord, op]; rfl

theorem decodeWord_of_opJal {iw : InstrWord} (op : opcodeOf iw = opJal) :
    decodeWord iw = .ok (.jal (rdOf iw) (immJ iw)) := by
  rw [decodeWord, op]; rfl

theorem decodeWord_of_passesTests {i : Instr} {iw : InstrWord} (passes : i.PassesTests iw) :
    decodeWord iw = .ok (i.readFrom iw) := by
  cases i with
  | add | mul | sub | sll | srl | and =>
    obtain ⟨op, f3, f7⟩ := passes
    simp [decodeWord_of_opOp op, decodeR, f3, f7, Instr.readFrom]
  | addi =>
    obtain ⟨op, f3⟩ := passes
    simp [decodeWord_of_opOpImm op, decodeIArith, f3, Instr.readFrom]
  | srli =>
    obtain ⟨op, f3, f7⟩ := passes
    simp [decodeWord_of_opOpImm op, decodeIArith, f3, f7, Instr.readFrom]
  | sllw | sraw =>
    obtain ⟨op, f3, f7⟩ := passes
    simp [decodeWord_of_opOp32 op, decodeW, f3, f7, Instr.readFrom]
  | lb | lw | ld =>
    obtain ⟨op, f3⟩ := passes
    simp [decodeWord_of_opLoad op, decodeLoad, f3, Instr.readFrom]
  | beq | bne | blt | bge =>
    obtain ⟨op, f3⟩ := passes
    simp [decodeWord_of_opBranch op, decodeBranch, f3, Instr.readFrom]
  | sb | sw | sd =>
    obtain ⟨op, f3⟩ := passes
    simp [decodeWord_of_opStore op, decodeStore, f3, Instr.readFrom]
  | jalr => exact decodeWord_of_opJalr passes
  | jal => exact decodeWord_of_opJal passes

section Handlers
variable {iw : InstrWord} {i : Instr}

theorem decodeR_eq_ok (op : opcodeOf iw = opOp) (handled : decodeR iw = .ok i) :
    i.PassesTests iw ∧ i.readFrom iw = i := by
  unfold decodeR at handled
  split_ifs at handled with tests tests tests tests tests tests
  all_goals cases handled
  all_goals exact ⟨⟨op, tests⟩, rfl⟩

theorem decodeIArith_eq_ok (op : opcodeOf iw = opOpImm) (handled : decodeIArith iw = .ok i) :
    i.PassesTests iw ∧ i.readFrom iw = i := by
  unfold decodeIArith at handled
  split_ifs at handled with tests tests
  all_goals cases handled
  all_goals exact ⟨⟨op, tests⟩, rfl⟩

theorem decodeW_eq_ok (op : opcodeOf iw = opOp32) (handled : decodeW iw = .ok i) :
    i.PassesTests iw ∧ i.readFrom iw = i := by
  unfold decodeW at handled
  split_ifs at handled with tests tests
  all_goals cases handled
  all_goals exact ⟨⟨op, tests⟩, rfl⟩

theorem decodeLoad_eq_ok (op : opcodeOf iw = opLoad) (handled : decodeLoad iw = .ok i) :
    i.PassesTests iw ∧ i.readFrom iw = i := by
  unfold decodeLoad at handled
  split_ifs at handled with tests tests tests
  all_goals cases handled
  all_goals exact ⟨⟨op, tests⟩, rfl⟩

theorem decodeBranch_eq_ok (op : opcodeOf iw = opBranch) (handled : decodeBranch iw = .ok i) :
    i.PassesTests iw ∧ i.readFrom iw = i := by
  unfold decodeBranch at handled
  split_ifs at handled with tests tests tests tests
  all_goals cases handled
  all_goals exact ⟨⟨op, tests⟩, rfl⟩

theorem decodeStore_eq_ok (op : opcodeOf iw = opStore) (handled : decodeStore iw = .ok i) :
    i.PassesTests iw ∧ i.readFrom iw = i := by
  unfold decodeStore at handled
  split_ifs at handled with tests tests tests
  all_goals cases handled
  all_goals exact ⟨⟨op, tests⟩, rfl⟩

end Handlers

theorem passesTests_of_decodeWord_eq_ok {iw : InstrWord} {i : Instr} (answer : decodeWord iw = .ok i) :
    i.PassesTests iw ∧ i.readFrom iw = i := by
  unfold decodeWord at answer
  split_ifs at answer with op op op op op op op op
  · exact decodeR_eq_ok op answer
  · cases answer; exact ⟨op, rfl⟩
  · exact decodeIArith_eq_ok op answer
  · exact decodeW_eq_ok op answer
  · exact decodeLoad_eq_ok op answer
  · exact decodeBranch_eq_ok op answer
  · exact decodeStore_eq_ok op answer
  · cases answer; exact ⟨op, rfl⟩

/-- What the decoder answers, said once: the instruction whose row the word matches, operands read from the word. -/
theorem decodeWord_eq_ok_iff {iw : InstrWord} {i : Instr} :
    decodeWord iw = .ok i ↔ i.Matches iw ∧ i.readFrom iw = i := by
  rw [← i.passesTests_iff_matches]
  refine ⟨passesTests_of_decodeWord_eq_ok, fun ⟨passes, read⟩ => ?_⟩
  rw [decodeWord_of_passesTests passes, read]

theorem decodeWord_of_matches {iw : InstrWord} {i : Instr} (h : i.Matches iw) : decodeWord iw = .ok (i.readFrom iw) :=
  decodeWord_of_passesTests ((i.passesTests_iff_matches iw).2 h)

/-! ### Instructions and rows -/

@[simp] theorem Instr.row_readFrom (i : Instr) (iw : InstrWord) : (i.readFrom iw).row = i.row := by
  cases i <;> rfl

theorem Instr.wf_readFrom (i : Instr) (iw : InstrWord) : (i.readFrom iw).wf = true := by
  cases i <;> simp [Instr.readFrom, Instr.wf]

theorem Instr.row_mem_opcodeTable (i : Instr) : i.row ∈ opcodeTable := by
  cases i <;> simp [opcodeTable, Instr.row]

theorem exists_row_of_mem_opcodeTable {r : OpcodeRow} (h : r ∈ opcodeTable) : ∃ i : Instr, i.row = r := by
  obtain listed | listed := List.mem_append.1 h
  all_goals
    obtain ⟨i, -, same⟩ := List.mem_map.1 listed
    exact ⟨i, same⟩

/-- The family `TableRow` as one statement. -/
theorem Instr.matches_encode (i : Instr) : i.Matches (encode i) :=
  match i with
  | .add .. => Laws.TableRow.add ..
  | .mul .. => Laws.TableRow.mul ..
  | .sub .. => Laws.TableRow.sub ..
  | .sll .. => Laws.TableRow.sll ..
  | .srl .. => Laws.TableRow.srl ..
  | .and .. => Laws.TableRow.and ..
  | .jalr .. => Laws.TableRow.jalr ..
  | .jal .. => Laws.TableRow.jal ..
  | .addi .. => Laws.TableRow.addi ..
  | .srli .. => Laws.TableRow.srli ..
  | .sllw .. => Laws.TableRow.sllw ..
  | .sraw .. => Laws.TableRow.sraw ..
  | .beq .. => Laws.TableRow.beq ..
  | .bne .. => Laws.TableRow.bne ..
  | .blt .. => Laws.TableRow.blt ..
  | .bge .. => Laws.TableRow.bge ..
  | .sb .. => Laws.TableRow.sb ..
  | .sw .. => Laws.TableRow.sw ..
  | .sd .. => Laws.TableRow.sd ..
  | .lb .. => Laws.TableRow.lb ..
  | .lw .. => Laws.TableRow.lw ..
  | .ld .. => Laws.TableRow.ld ..

theorem Instr.readFrom_encode {i : Instr} (fits : i.wf = true) : i.readFrom (encode i) = i := by
  cases i with
  | add | mul | sub | sll | srl | and | srli | sllw | sraw | jalr => simp [Instr.readFrom, encode]
  | addi | lb | lw | ld | sb | sw | sd => simp [Instr.readFrom, encode, toInt_ofInt_of_fits12 fits]
  | beq | bne | blt | bge => simp [Instr.readFrom, encode, immB_encodeB_of_fits fits]
  | jal => simp [Instr.readFrom, encode, immJ_encodeJ_of_fits fits]

/-- Of a word that passes an instruction's tests, the fields are the instruction's own constants and the operands, so
that encoding what was read puts the word together again. -/
theorem encode_readFrom {i : Instr} {iw : InstrWord} (passes : i.PassesTests iw) (notJalr : ∀ rs1, i ≠ .jalr rs1) :
    encode (i.readFrom iw) = iw := by
  cases i with
  | add | mul | sub | sll | srl | and | srli | sllw | sraw =>
    obtain ⟨op, f3, f7⟩ := passes
    have whole := encodeR_fields iw
    rw [op, f3, f7] at whole
    exact whole
  | addi | lb | lw | ld =>
    obtain ⟨op, f3⟩ := passes
    have whole := encodeI_fields iw
    rw [op, f3] at whole
    exact whole
  | sb | sw | sd =>
    obtain ⟨op, f3⟩ := passes
    have whole := encodeS_fields iw
    rw [op, f3] at whole
    exact whole
  | beq | bne | blt | bge =>
    obtain ⟨op, f3⟩ := passes
    have whole := encodeB_fields iw
    rw [op, f3] at whole
    exact whole
  | jal =>
    have whole := encodeJ_fields iw
    rw [show opcodeOf iw = opJal from passes] at whole
    exact whole
  | jalr rs1 => exact absurd rfl (notJalr rs1)

/-- JALR's word has zeros where the word it was read from had ignored bits (R98). -/
theorem encode_readFrom_jalr {rs1 : Reg} {iw : InstrWord} (passes : (Instr.jalr rs1).PassesTests iw) :
    encode ((Instr.jalr rs1).readFrom iw) = iw &&& 0x000F807F#32 := by
  have kept := encodeI_rs1_opcode iw
  rw [show opcodeOf iw = opJalr from passes] at kept
  exact kept

/-! ### The operands as the statements read them -/

theorem regAt_eq_field (iw : InstrWord) (lo : Nat) (inside : lo + 5 ≤ 64) :
    regAt iw lo = (field iw lo 5 inside).toFin := by
  ext
  simp [regAt, field_eq_extractLsb', Nat.shiftRight_eq_div_pow]

theorem regAt_eq_rdOf (iw : InstrWord) : regAt iw 7 = rdOf iw := regAt_eq_field iw 7 _

theorem regAt_eq_rs1Of (iw : InstrWord) : regAt iw 15 = rs1Of iw := regAt_eq_field iw 15 _

theorem regAt_eq_rs2Of (iw : InstrWord) : regAt iw 20 = rs2Of iw := regAt_eq_field iw 20 _

theorem ofNat_div_eq_shamtOf (iw : InstrWord) : BitVec.ofNat 5 (iw.toNat / 2 ^ 20) = shamtOf iw := by
  apply BitVec.eq_of_toNat_eq
  simp [shamtOf, field_eq_extractLsb', Nat.shiftRight_eq_div_pow]

theorem decodesAs_row (i : Instr) : DecodesAs i.row.value i.row.mask i.readFrom :=
  fun _ matched => decodeWord_of_matches matched

end Sys2Proof

namespace Sys2Proof.Proofs

open Sys2Proof.Claims

/-- Settles O7: the encoding matches the instruction's row, and every operand that fits reads back from its place. -/
theorem decodeOfEncodeIsIdentity : Obligations.DecodeOfEncodeIsIdentity := by
  unfold Obligations.DecodeOfEncodeIsIdentity
  intro i fits
  exact decodeWord_eq_ok_iff.2 ⟨i.matches_encode, Instr.readFrom_encode fits⟩

/-- Settles O4: the readings and ranges of the four immediates, and the J round trip from the even numbers in range. -/
theorem immediatesFollowTheBitLayout : Obligations.ImmediatesFollowTheBitLayout := by
  unfold Obligations.ImmediatesFollowTheBitLayout
  refine ⟨fun iw => ?_, fun iw => ?_, fun iw => ?_, fun iw => ?_, fun rd v lower upper even => ?_, by decide, by decide,
    by decide, by decide, by decide, by decide, by decide⟩
  · exact ⟨immI_eq_dispI iw, immFits12_iff.1 (immFits12_immI iw)⟩
  · exact ⟨immS_eq_dispS iw, immFits12_iff.1 (immFits12_immS iw)⟩
  · exact ⟨immB_eq_dispB iw, immFitsB_iff.1 (immFitsB_immB iw)⟩
  · exact ⟨immJ_eq_dispJ iw, immFitsJ_iff.1 (immFitsJ_immJ iw)⟩
  · exact immJ_encodeJ_of_fits (immFitsJ_iff.2 ⟨lower, upper, even⟩) _ _

/-- Settles O6: each clause is the decoder's answer on one row, its operands rewritten to the statements' reading. -/
theorem wordsDecodeToTheirInstruction : Obligations.WordsDecodeToTheirInstruction := by
  unfold Obligations.WordsDecodeToTheirInstruction
  simp only [regAt_eq_rdOf, regAt_eq_rs1Of, regAt_eq_rs2Of, ofNat_div_eq_shamtOf, ← immI_eq_dispI, ← immS_eq_dispS,
    ← immB_eq_dispB, ← immJ_eq_dispJ]
  exact ⟨decodesAs_row (.add 0 0 0), decodesAs_row (.mul 0 0 0), decodesAs_row (.sub 0 0 0),
    decodesAs_row (.sll 0 0 0), decodesAs_row (.srl 0 0 0), decodesAs_row (.and 0 0 0), decodesAs_row (.jalr 0),
    decodesAs_row (.jal 0 0), decodesAs_row (.addi 0 0 0), decodesAs_row (.srli 0 0 0), decodesAs_row (.sllw 0 0 0),
    decodesAs_row (.sraw 0 0 0), decodesAs_row (.beq 0 0 0), decodesAs_row (.bne 0 0 0), decodesAs_row (.blt 0 0 0),
    decodesAs_row (.bge 0 0 0), decodesAs_row (.sb 0 0 0), decodesAs_row (.sw 0 0 0), decodesAs_row (.sd 0 0 0),
    decodesAs_row (.lb 0 0 0), decodesAs_row (.lw 0 0 0), decodesAs_row (.ld 0 0 0)⟩

/-- Settles O8: the decoded instruction is the one read from the word, and encoding puts the word together again. -/
theorem encodeOfDecodeIsIdentity : Obligations.EncodeOfDecodeIsIdentity := by
  unfold Obligations.EncodeOfDecodeIsIdentity
  intro iw i answer
  obtain ⟨passes, read⟩ := passesTests_of_decodeWord_eq_ok answer
  refine ⟨?_, fun notJalr => ?_, ?_⟩
  · rw [← read]
    exact i.wf_readFrom iw
  · rw [← read]
    exact encode_readFrom passes notJalr
  · rintro rs1 rfl
    rw [← read]
    exact encode_readFrom_jalr passes

/-- Settles O9: the decoded instruction's row is listed, and a listed row is some instruction's. -/
theorem acceptedWordsAreTheTableRows : Obligations.AcceptedWordsAreTheTableRows := by
  unfold Obligations.AcceptedWordsAreTheTableRows
  intro iw
  constructor
  · rintro ⟨i, answer⟩
    obtain ⟨matched, -⟩ := decodeWord_eq_ok_iff.1 answer
    exact ⟨i.row, i.row_mem_opcodeTable, matched⟩
  · rintro ⟨row, listed, matched⟩
    obtain ⟨i, rfl⟩ := exists_row_of_mem_opcodeTable listed
    exact ⟨i.readFrom iw, decodeWord_of_matches matched⟩

/-- Settles O10: a word that matched two rows would decode to an instruction of each, and it decodes to one. -/
theorem opcodeRowsAreDisjoint : Obligations.OpcodeRowsAreDisjoint := by
  unfold Obligations.OpcodeRowsAreDisjoint
  intro iw r rListed q qListed rMatched qMatched
  obtain ⟨i, rfl⟩ := exists_row_of_mem_opcodeTable rListed
  obtain ⟨j, rfl⟩ := exists_row_of_mem_opcodeTable qListed
  have same : i.readFrom iw = j.readFrom iw :=
    Except.ok.inj ((decodeWord_of_matches rMatched).symm.trans (decodeWord_of_matches qMatched))
  simpa using congrArg Instr.row same

/-- Settles O5: the decoder evaluated on the eight words. -/
theorem sampleWordsDecode : Obligations.SampleWordsDecode := by
  unfold Obligations.SampleWordsDecode
  decide

end Sys2Proof.Proofs
end

section
/-! PROOF. The statements of 40_step_and_dispatch.md: the stops, what a step counts, and the ends of a run. -/

namespace Sys2Proof.Machine

open Sys2Proof.Claims

/-! ### The two stops of a block that is not running (R112, 60_exceptions.md R204) -/

theorem step_of_latched {s : State} {r : FatalRecord} (latched : s.fatal = some r) :
    step s = .fault (.fatalStop r) :=
  step_fault.2 (.inl ⟨r, latched, rfl⟩)

theorem step_of_halted {s : State} (unlatched : s.fatal = none) (at_stop : s.pc = s.platform.stopPc) :
    step s = .fault .halted :=
  step_fault.2 (.inr (.inl ⟨unlatched, at_stop, rfl⟩))

/-- No instruction answers the halt, so a step that does found the block at STOP_PC. -/
theorem step_eq_halted_iff {s : State} : step s = .fault .halted ↔ s.fatal = none ∧ s.pc = s.platform.stopPc := by
  refine ⟨fun stopped => ?_, fun ⟨unlatched, at_stop⟩ => step_of_halted unlatched at_stop⟩
  obtain ⟨r, -, other⟩ | ⟨unlatched, at_stop, -⟩ | ⟨-, -, other⟩ | ⟨-, iw, i, -, -, stopped⟩ := step_fault.1 stopped
  · cases other
  · exact ⟨unlatched, at_stop⟩
  · cases other
  · exact (exec_fault stopped).elim

/-- No instruction answers the fatal stop, so a step that does found the latch set. -/
theorem step_eq_fatalStop_iff {s : State} {r : FatalRecord} : step s = .fault (.fatalStop r) ↔ s.fatal = some r := by
  refine ⟨fun stopped => ?_, step_of_latched⟩
  obtain ⟨r', latched, same⟩ | ⟨-, -, other⟩ | ⟨-, -, other⟩ | ⟨-, iw, i, -, -, stopped⟩ := step_fault.1 stopped
  · cases same; exact latched
  · cases other
  · cases other
  · exact (exec_fault stopped).elim

/-! ### What is counted (R118) -/

/-- The table of the seven counters against the seven increments. -/
theorem counter_bump (k : Counters) (c d : CounterName) :
    counter (k.bump c) d = counter k d + if d = c then 1#64 else 0#64 := by
  cases c <;> cases d <;> simp [Counters.bump, counter]

/-- The class is never `total`, so the two increments fall on two counters. -/
theorem complete_countedAs (s : State) (i : Instr) (m : Memory) (v : Word) :
    CountedAs s (s.complete i m v) (classOf s i) := by
  intro k
  rw [complete_ctr]
  by_cases enabled : s.instrEn = true
  · rw [if_pos enabled, counter_bump, counter_bump]
    by_cases total : k = .total
    · simp [enabled, total, (classOf_ne_total s i).symm]
    · simp [enabled, total]
  · simp [enabled]

/-! ### The ends of a run (R110, R120) -/

theorem run_zero_of_running {s : State} (running : Running s) : run 0 s = .outOfFuel s := by
  simp [run, status_eq_running.2 running]

theorem run_zero_of_halted {s : State} (halted : s.status = .halted) : run 0 s = endOf .halted s := by
  simp [run, halted]

theorem run_zero_of_latched {s : State} {r : FatalRecord} (latched : s.fatal = some r) :
    run 0 s = endOf (.fatalStop r) s := by
  simp [run, State.status, latched]

theorem run_succ_of_next {s t : State} (stepped : step s = .next t) (fuel : Nat) : run (fuel + 1) s = run fuel t := by
  simp [run, stepped]

theorem run_succ_of_fault {s : State} {f : Fault} (stopped : step s = .fault f) (fuel : Nat) :
    run (fuel + 1) s = endOf f s := by
  simp [run, stopped]

/-- A block that is not running ends at once, by its stop, whatever the fuel. -/
theorem run_of_not_running {s : State} (not_running : ¬Running s) :
    ∃ f, step s = .fault f ∧ ∀ fuel, run fuel s = endOf f s := by
  obtain ⟨f, stopped, without_fuel⟩ : ∃ f, step s = .fault f ∧ run 0 s = endOf f s := by
    cases status : s.status with
    | running => exact absurd (status_eq_running.1 status) not_running
    | halted =>
      obtain ⟨unlatched, at_stop⟩ := status_eq_halted.1 status
      exact ⟨.halted, step_of_halted unlatched at_stop, run_zero_of_halted status⟩
    | fatal =>
      obtain ⟨r, latched⟩ := Option.ne_none_iff_exists'.1 (status_eq_fatal.1 status)
      exact ⟨.fatalStop r, step_of_latched latched, run_zero_of_latched latched⟩
  refine ⟨f, stopped, fun fuel => ?_⟩
  cases fuel with
  | zero => exact without_fuel
  | succ fuel => exact run_succ_of_fault stopped fuel

/-- A run that does not spend its fuel ends in a state whose step stops, and with more fuel it ends there too. -/
theorem run_ends (fuel : Nat) (s : State) :
    (∃ t, run fuel s = .outOfFuel t) ∨ ∃ f t, step t = .fault f ∧ ∀ more, run (fuel + more) s = endOf f t := by
  induction fuel generalizing s with
  | zero =>
    by_cases running : Running s
    · exact .inl ⟨s, run_zero_of_running running⟩
    · obtain ⟨f, stopped, ends⟩ := run_of_not_running running
      exact .inr ⟨f, s, stopped, fun more => ends (0 + more)⟩
  | succ fuel ih =>
    cases answer : step s with
    | next u =>
      simp only [Nat.add_right_comm fuel 1, run_succ_of_next answer]
      exact ih u
    | fault f =>
      refine .inr ⟨f, s, answer, fun more => ?_⟩
      rw [Nat.add_right_comm, run_succ_of_fault answer]
    | refused r =>
      obtain ⟨i, refuses⟩ := step_refused answer
      exact absurd refuses (exec_ne_refused i s r)

theorem endOf_eq_halted_iff {f : Fault} {s t : State} {v : Word} :
    endOf f s = .halted v t ↔ f = .halted ∧ s = t ∧ v = s.readReg returnReg := by
  cases f <;> simp [endOf, eq_comm, and_comm]

theorem endOf_eq_fatal_iff {f : Fault} {s t : State} {r : FatalRecord} :
    endOf f s = .fatal r t ↔ f = .fatalStop r ∧ s = t := by
  cases f <;> simp [endOf]

/-- The end of a run that did not spend its fuel is that of a state whose step stops. -/
theorem exists_stop_of_run_eq {fuel : Nat} {s : State} {e : RunEnd} (ended : run fuel s = e)
    (not_spent : ∀ t, e ≠ .outOfFuel t) : ∃ f t, step t = .fault f ∧ endOf f t = e := by
  obtain ⟨t, spent⟩ | ⟨f, t, stopped, ends⟩ := run_ends fuel s
  · exact absurd (ended.symm.trans spent) (not_spent t)
  · exact ⟨f, t, stopped, (ends 0).symm.trans ended⟩

theorem result_of_halted {s : State} (unlatched : s.fatal = none) (at_stop : s.pc = s.platform.stopPc) :
    s.result = some (s.readReg returnReg) := by
  rw [State.result, status_eq_halted.2 ⟨unlatched, at_stop⟩]

theorem result_of_latched {s : State} {r : FatalRecord} (latched : s.fatal = some r) : s.result = none := by
  rw [State.result, status_eq_fatal.2 (by simp [latched])]

end Sys2Proof.Machine

namespace Sys2Proof.Proofs

open Sys2Proof.Machine Sys2Proof.Claims

/-- Settles O49: a completed instruction counts `total` and its class, and the latch leaves the counters. -/
theorem everyStepCountsItsClass : Obligations.EveryStepCountsItsClass := by
  unfold Obligations.EveryStepCountsItsClass
  intro s t iw stepped fetched
  obtain ⟨unlatched, not_at_stop, -⟩ := step_next stepped
  have running : Running s := ⟨unlatched, not_at_stop⟩
  cases answer : decodeWord iw with
  | ok i =>
    rw [step_of_decoded running fetched answer] at stepped
    obtain ⟨m, v, rfl, -, -⟩ := exec_next stepped
    refine ⟨fun j same => ?_, fun u other => (by cases other), fun disabled => by simp [disabled]⟩
    cases same
    exact ⟨classOf_ne_total s i, complete_countedAs s i m v⟩
  | error u =>
    rw [step_of_unsupported running fetched answer] at stepped
    cases stepped
    exact ⟨fun i other => (by cases other), fun _ _ => raiseFatal_ctr s u iw, fun _ => raiseFatal_ctr s u iw⟩

/-- Settles O58: a run ends where a step stops, and the two stops are answered at STOP_PC and with the latch alone. -/
theorem runEndsAsItsStatusSays : Obligations.RunEndsAsItsStatusSays := by
  unfold Obligations.RunEndsAsItsStatusSays
  refine ⟨fun fuel s v t ended => ?_, fun fuel s r t ended => ?_⟩
  · obtain ⟨f, u, stopped, halted⟩ := exists_stop_of_run_eq ended (by simp)
    obtain ⟨rfl, rfl, rfl⟩ := endOf_eq_halted_iff.1 halted
    obtain ⟨unlatched, at_stop⟩ := step_eq_halted_iff.1 stopped
    exact ⟨unlatched, at_stop, rfl, result_of_halted unlatched at_stop⟩
  · obtain ⟨f, u, stopped, fatal⟩ := exists_stop_of_run_eq ended (by simp)
    obtain ⟨rfl, rfl⟩ := endOf_eq_fatal_iff.1 fatal
    have latched := step_eq_fatalStop_iff.1 stopped
    exact ⟨latched, result_of_latched latched⟩

/-- Settles O59: a run that does not spend its fuel ends in the same stopped state whatever is added to it. -/
theorem moreFuelKeepsTheEnd : Obligations.MoreFuelKeepsTheEnd := by
  unfold Obligations.MoreFuelKeepsTheEnd
  intro fuel more s not_spent
  obtain ⟨t, spent⟩ | ⟨f, t, -, ends⟩ := run_ends fuel s
  · exact absurd spent (not_spent t)
  · exact (ends more).trans (ends 0).symm

/-- Settles O12: the tests before the dispatch all pass. -/
theorem stepRunsDecodedInstruction : Obligations.StepRunsDecodedInstruction := by
  unfold Obligations.StepRunsDecodedInstruction
  exact fun s iw i running fetched decoded => step_of_decoded running fetched decoded

/-- Settles O15: both stops are decided by the latch and the pc, which no text changes. -/
theorem stoppedBlockAnswersItsStop : Obligations.StoppedBlockAnswersItsStop := by
  unfold Obligations.StoppedBlockAnswersItsStop
  exact ⟨fun s text unlatched at_stop => step_of_halted unlatched at_stop,
    fun s r text latched => step_of_latched latched⟩

/-- Settles O60: every completed instruction counts its class and keeps latch and STOP_PC, so at STOP_PC the block is
halted, whichever of the branches and jumps led there. -/
theorem jumpToStopPcCountsAndHalts : Obligations.JumpToStopPcCountsAndHalts := by
  unfold Obligations.JumpToStopPcCountsAndHalts
  intro i s t jumps unlatched executed at_stop
  obtain ⟨m, v, rfl, -, -⟩ := exec_next executed
  refine ⟨complete_countedAs s i m v, step_of_halted ?_ ?_⟩
  · rw [complete_fatal, unlatched]
  · rw [at_stop, complete_platform]

end Sys2Proof.Proofs
end

section
/-! PROOF. The statements of 41_r_type.md: the frame of a completed instruction, piece by piece, and the arithmetic of
the six R-type operations. -/

namespace Sys2Proof.Machine

open Sys2Proof.Claims

/-! ### The frame of a completed instruction -/

section
variable {s : State} {i : Instr} (m : Memory) (v : Word)

theorem complete_regTakes {rd : Reg} (dest : destination i = some rd) : RegTakes s (s.complete i m v) rd v :=
  regTakes_of_regs_eq (by rw [complete_regs, dest, Option.getD_some])

theorem complete_pcMoves {d : Int} (pc : nextPcOf s i = s.pc.toNat + d) : PcMoves s (s.complete i m v) d := by
  rw [PcMoves, complete_pc, pc, BitVec.toNat_ofInt, Int.toNat_of_nonneg (Int.emod_nonneg _ (by decide))]
  rfl

variable (s i) in
theorem complete_memKept : MemKept s (s.complete i s.mem v) :=
  readByte_eq_of_mem_eq (complete_mem s i s.mem v) (complete_platform s i s.mem v)

variable (s i) in
theorem complete_fixedKept : FixedKept s (s.complete i m v) :=
  ⟨complete_imem s i m v, complete_instrEn s i m v, complete_platform s i m v, complete_fatal s i m v⟩

end

/-- An instruction of class `alu` that computes a value for `rd` from memory it keeps, and goes on at `pc + 4`. -/
theorem aluRule_of_computes {i : Instr} {effect : State → Except Fault (Memory × Word)} {rd : Reg} {s : State}
    {v : Word} (computes : Computes i effect) (seq : Sequential i (some rd) .alu)
    (value : effect s = .ok (s.mem, v)) : AluRule i s rd v := by
  have executed : exec i s = .next (s.complete i s.mem v) := by rw [computes.exec_eq, value, State.answer]
  have counted : CountedAs s (s.complete i s.mem v) .alu := seq.cls s ▸ complete_countedAs s i s.mem v
  exact ⟨_, executed, complete_regTakes s.mem v seq.dest, complete_pcMoves s.mem v (seq.pc s), counted,
    complete_memKept s i v, complete_fixedKept s i s.mem v⟩

/-- The rule of a register-register instruction whose operation gives the value `v` on the sources. -/
theorem aluRule_of_aluRegReg {i : Instr} {op : Word → Word → Word} {rd rs1 rs2 : Reg} {s : State} {v : Word}
    (runs : ∀ s, exec i s = aluRegReg op rd rs1 rs2 s) (src : sources i = [rs1, rs2])
    (seq : Sequential i (some rd) .alu) (value : op (s.readReg rs1) (s.readReg rs2) = v) : AluRule i s rd v :=
  aluRule_of_computes (computes_aluRegReg runs src seq) seq (by rw [value])

/-! ### The operations as arithmetic on the unsigned values -/

theorem add_eq_ofNat (a b : Word) : a + b = BitVec.ofNat 64 (a.toNat + b.toNat) := by
  simp [BitVec.ofNat_add]

theorem mul_eq_ofNat (a b : Word) : a * b = BitVec.ofNat 64 (a.toNat * b.toNat) := by
  simp [BitVec.ofNat_mul]

theorem sub_eq_ofInt (a b : Word) : a - b = BitVec.ofInt 64 ((a.toNat : Int) - b.toNat) := by
  rw [Int.sub_eq_add_neg, BitVec.ofInt_add, BitVec.ofInt_neg, BitVec.sub_eq_add_neg]
  simp

theorem shiftAmount64_eq_mod (v : Word) : shiftAmount64 v = v.toNat % 64 := by
  rw [shiftAmount64, BitVec.extractLsb'_toNat, Nat.shiftRight_zero]

theorem shiftLeft_eq_ofNat (a : Word) (n : Nat) : a <<< n = BitVec.ofNat 64 (a.toNat * 2 ^ n) := by
  rw [← Nat.shiftLeft_eq]; rfl

theorem ushiftRight_eq_ofNat (a : Word) (n : Nat) : a >>> n = BitVec.ofNat 64 (a.toNat / 2 ^ n) := by
  rw [← Nat.shiftRight_eq_div_pow, ← BitVec.toNat_ushiftRight, BitVec.ofNat_toNat, BitVec.setWidth_eq]

end Sys2Proof.Machine

namespace Sys2Proof.Proofs

open Sys2Proof.Machine Sys2Proof.Claims

/-- Settles O19: 64-bit addition is addition of the unsigned values modulo 2^64. -/
theorem addWritesSum : Obligations.AddWritesSum := by
  unfold Obligations.AddWritesSum
  intro rd rs1 rs2 s
  exact aluRule_of_aluRegReg (fun _ => rfl) rfl ⟨rfl, fun _ => rfl, fun _ => rfl⟩ (add_eq_ofNat _ _)

/-- Settles O20: 64-bit multiplication is multiplication of the unsigned values modulo 2^64. -/
theorem mulWritesLowProduct : Obligations.MulWritesLowProduct := by
  unfold Obligations.MulWritesLowProduct
  intro rd rs1 rs2 s
  exact aluRule_of_aluRegReg (fun _ => rfl) rfl ⟨rfl, fun _ => rfl, fun _ => rfl⟩ (mul_eq_ofNat _ _)

/-- Settles O21: 64-bit subtraction is the integer difference of the unsigned values modulo 2^64. -/
theorem subWritesDifference : Obligations.SubWritesDifference := by
  unfold Obligations.SubWritesDifference
  intro rd rs1 rs2 s
  exact aluRule_of_aluRegReg (fun _ => rfl) rfl ⟨rfl, fun _ => rfl, fun _ => rfl⟩ (sub_eq_ofInt _ _)

/-- Settles O22: bits 5:0 of the amount are its residue modulo 64, and a left shift is a product with a power of 2. -/
theorem sllShiftsLeftBySixBitAmount : Obligations.SllShiftsLeftBySixBitAmount := by
  unfold Obligations.SllShiftsLeftBySixBitAmount
  intro rd rs1 rs2 s
  rw [← shiftAmount64_eq_mod]
  exact aluRule_of_aluRegReg (op := fun a b => a <<< shiftAmount64 b) (fun _ => rfl) rfl
    ⟨rfl, fun _ => rfl, fun _ => rfl⟩ (shiftLeft_eq_ofNat _ _)

/-- Settles O23: bits 5:0 of the amount are its residue modulo 64, and a right shift is a quotient by a power of 2. -/
theorem srlShiftsRightBySixBitAmount : Obligations.SrlShiftsRightBySixBitAmount := by
  unfold Obligations.SrlShiftsRightBySixBitAmount
  intro rd rs1 rs2 s
  rw [← shiftAmount64_eq_mod]
  exact aluRule_of_aluRegReg (op := fun a b => a >>> shiftAmount64 b) (fun _ => rfl) rfl
    ⟨rfl, fun _ => rfl, fun _ => rfl⟩ (ushiftRight_eq_ofNat _ _)

/-- Settles O24: the value is the conjunction of the two patterns, which is taken bit by bit. -/
theorem andWritesBitwiseConjunction : Obligations.AndWritesBitwiseConjunction := by
  unfold Obligations.AndWritesBitwiseConjunction
  intro rd rs1 rs2 s
  exact ⟨s.readReg rs1 &&& s.readReg rs2,
    aluRule_of_aluRegReg (fun _ => rfl) rfl ⟨rfl, fun _ => rfl, fun _ => rfl⟩ rfl, fun j _ => BitVec.getLsbD_and⟩

end Sys2Proof.Proofs
end

section
/-! PROOF. The statement of 42_jalr.md: a completed instruction without a destination keeps the registers, and JALR is
one whose next pc is the source register whole. -/

namespace Sys2Proof.Machine

open Sys2Proof.Claims

/-- The frame of an instruction that writes no register (10_state.md R23). -/
theorem complete_regsKept {i : Instr} (dest : destination i = none) (s : State) (m : Memory) (v : Word) :
    RegsKept s (s.complete i m v) :=
  fun r => complete_readReg_other s m v (by simp [dest])

theorem exec_jalr_eq_complete (rs1 : Reg) (s : State) :
    exec (.jalr rs1) s = .next (s.complete (.jalr rs1) s.mem 0#64) :=
  (computes_jalr rs1).exec_eq s

/-- The pc's pattern is read and written back as it is: no offset, and bit 0 is kept (D11). -/
theorem complete_jalr_pc (rs1 : Reg) (s : State) (m : Memory) (v : Word) :
    (s.complete (.jalr rs1) m v).pc = s.readReg rs1 := by
  rw [complete_pc, nextPcOf, BitVec.ofInt_natCast, BitVec.ofNat_toNat, BitVec.setWidth_eq]

end Sys2Proof.Machine

namespace Sys2Proof.Proofs

open Sys2Proof.Machine Sys2Proof.Claims

/-- Settles O25: JALR completes with no destination, memory as it was, and `x[rs1]` as its next pc. -/
theorem jalrSetsPcToRegister : Obligations.JalrSetsPcToRegister := by
  unfold Obligations.JalrSetsPcToRegister
  intro rs1 s
  have counted : CountedAs s (s.complete (.jalr rs1) s.mem 0#64) .jump := complete_countedAs s (.jalr rs1) s.mem 0#64
  exact ⟨_, exec_jalr_eq_complete rs1 s, complete_jalr_pc rs1 s s.mem 0#64, counted,
    complete_regsKept rfl s s.mem 0#64, complete_memKept s (.jalr rs1) 0#64, complete_fixedKept s (.jalr rs1) s.mem 0#64⟩

end Sys2Proof.Proofs
end

section
/-! PROOF. The statement of 43_jal.md: JAL is the instruction whose computed value is the link `pc + 4`. -/

namespace Sys2Proof.Machine

/-- JAL completes from every state, with the link for `rd` and memory as it was. -/
theorem exec_jal_eq_complete (rd : Reg) (imm : Int) (s : State) :
    exec (.jal rd imm) s = .next (s.complete (.jal rd imm) s.mem (BitVec.ofNat 64 (s.pc.toNat + 4))) := by
  have link : s.pc + 4#64 = BitVec.ofNat 64 (s.pc.toNat + 4) := add_eq_ofNat s.pc 4#64
  rw [← link]
  exact (computes_jal rd imm).exec_eq s

end Sys2Proof.Machine

namespace Sys2Proof.Proofs

open Sys2Proof.Machine Sys2Proof.Claims

/-- Settles O26: JAL completes with the link as its destination's value, memory as it was, and a next pc `imm` away from
its own address. -/
theorem jalLinksAndJumps : Obligations.JalLinksAndJumps := by
  unfold Obligations.JalLinksAndJumps
  intro rd imm s
  exact ⟨_, exec_jal_eq_complete rd imm s, complete_regTakes s.mem _ rfl, complete_pcMoves s.mem _ rfl,
    complete_countedAs s (.jal rd imm) s.mem _, complete_memKept s (.jal rd imm) _,
    complete_fixedKept s (.jal rd imm) s.mem _⟩

end Sys2Proof.Proofs
end

section
/-! PROOF. The statements of 44_i_arith.md: an operation on one source that holds its immediate, and ADDI and SRLI as
arithmetic on the unsigned value. -/

namespace Sys2Proof.Machine

open Sys2Proof.Claims

/-- The rule of a register-immediate instruction whose operation gives the value `v` on the source. -/
theorem aluRule_of_aluReg {i : Instr} {op : Word → Word} {rd rs1 : Reg} {s : State} {v : Word}
    (runs : ∀ s, exec i s = aluReg op rd rs1 s) (src : sources i = [rs1])
    (seq : Sequential i (some rd) .alu) (value : op (s.readReg rs1) = v) : AluRule i s rd v :=
  aluRule_of_computes (computes_aluReg runs src seq) seq (by rw [value])

/-- The word's unsigned value serves for either sign of `n`: both agree modulo 2^64. -/
theorem add_ofInt_eq_ofInt (a : Word) (n : Int) : a + BitVec.ofInt 64 n = BitVec.ofInt 64 ((a.toNat : Int) + n) := by
  rw [BitVec.ofInt_add, BitVec.ofInt_natCast, BitVec.ofNat_toNat, BitVec.setWidth_eq]

end Sys2Proof.Machine

namespace Sys2Proof.Proofs

open Sys2Proof.Machine Sys2Proof.Claims

/-- Settles O27: adding the immediate's 64-bit pattern is integer addition modulo 2^64. -/
theorem addiAddsSignedImmediate : Obligations.AddiAddsSignedImmediate := by
  unfold Obligations.AddiAddsSignedImmediate
  intro rd rs1 imm s
  exact aluRule_of_aluReg (op := fun a => a + BitVec.ofInt 64 imm) (fun _ => rfl) rfl
    ⟨rfl, fun _ => rfl, fun _ => rfl⟩ (add_ofInt_eq_ofInt _ _)

/-- Settles O28: a right shift is a quotient by a power of 2, here with the literal count as its exponent. -/
theorem srliShiftsRightByLiteral : Obligations.SrliShiftsRightByLiteral := by
  unfold Obligations.SrliShiftsRightByLiteral
  intro rd rs1 shamt s
  exact aluRule_of_aluReg (op := fun a => a >>> shamt.toNat) (fun _ => rfl) rfl
    ⟨rfl, fun _ => rfl, fun _ => rfl⟩ (ushiftRight_eq_ofNat _ _)

end Sys2Proof.Proofs
end

section
/-! PROOF. The statements of 45_w_variant.md: the low word, its shifts and their sign extension as arithmetic. -/

namespace Sys2Proof.Machine

open Sys2Proof.Claims

theorem shiftAmount32_eq_mod (v : Word) : shiftAmount32 v = v.toNat % 32 := by
  rw [shiftAmount32, BitVec.extractLsb'_toNat, Nat.shiftRight_zero]

theorem lowWord_eq_ofNat (v : Word) : lowWord v = BitVec.ofNat 32 v.toNat := by
  rw [lowWord, BitVec.extractLsb', Nat.shiftRight_zero]

/-- Sign extension of a 32-bit pattern is the 64-bit pattern of its signed reading (00_scope.md R6). -/
theorem sext32_eq_ofInt (v : BitVec 32) : sext32 v = BitVec.ofInt 64 v.toInt := rfl

theorem signed32_eq_toInt_ofNat (n : Nat) : signed32 n = (BitVec.ofNat 32 n).toInt := by
  rw [signed32, BitVec.toInt_eq_toNat_cond, BitVec.toNat_ofNat]
  split <;> split <;> omega

/-- SLLW's value: the product with a power of 2, of which only the low 32 bits are read (R161). -/
theorem sext32_shiftLeft_eq (v : Word) (n : Nat) :
    sext32 (lowWord v <<< n) = BitVec.ofInt 64 (signed32 (v.toNat % 2 ^ 32 * 2 ^ n)) := by
  have shifted : lowWord v <<< n = BitVec.ofNat 32 (v.toNat % 2 ^ 32 * 2 ^ n) := by
    rw [lowWord_eq_ofNat, ← Nat.shiftLeft_eq]; rfl
  rw [sext32_eq_ofInt, shifted, signed32_eq_toInt_ofNat]

/-- SRAW's value: an arithmetic shift is the quotient by a power of 2 rounded down, which fits 32 bits (R162). -/
theorem sext32_sshiftRight_eq (v : Word) (n : Nat) :
    sext32 ((lowWord v).sshiftRight n) = BitVec.ofInt 64 (Int.fdiv (signed32 v.toNat) (2 ^ n)) := by
  have nonneg : (0 : Int) ≤ 2 ^ n := Int.pow_nonneg (by decide)
  rw [sext32_eq_ofInt, BitVec.toInt_sshiftRight, lowWord_eq_ofNat, ← signed32_eq_toInt_ofNat, Int.shiftRight_eq_div_pow,
    Int.fdiv_eq_ediv_of_nonneg _ nonneg]
  norm_cast

end Sys2Proof.Machine

namespace Sys2Proof.Proofs

open Sys2Proof.Machine Sys2Proof.Claims

/-- Settles O29: bits 4:0 of the amount are its residue modulo 32, and a left shift of the low word is a product with a
power of 2 whose low 32 bits are read signed. -/
theorem sllwShiftsLowWordLeft : Obligations.SllwShiftsLowWordLeft := by
  unfold Obligations.SllwShiftsLowWordLeft
  intro rd rs1 rs2 s
  rw [← shiftAmount32_eq_mod]
  exact aluRule_of_aluRegReg (op := fun a b => sext32 (lowWord a <<< shiftAmount32 b)) (fun _ => rfl) rfl
    ⟨rfl, fun _ => rfl, fun _ => rfl⟩ (sext32_shiftLeft_eq _ _)

/-- Settles O30: bits 4:0 of the amount are its residue modulo 32, and an arithmetic right shift of the low word is the
floor of its signed reading over a power of 2. -/
theorem srawShiftsLowWordArithmetically : Obligations.SrawShiftsLowWordArithmetically := by
  unfold Obligations.SrawShiftsLowWordArithmetically
  intro rd rs1 rs2 s
  rw [← shiftAmount32_eq_mod]
  exact aluRule_of_aluRegReg (op := fun a b => sext32 ((lowWord a).sshiftRight (shiftAmount32 b))) (fun _ => rfl) rfl
    ⟨rfl, fun _ => rfl, fun _ => rfl⟩ (sext32_sshiftRight_eq _ _)

end Sys2Proof.Proofs
end

section
/-! PROOF. The statements of 46_branch.md: every branch completes with no write but its counters and the pc, and which of
the two outcomes it takes is its condition's. -/

namespace Sys2Proof.Machine

open Sys2Proof.Claims

/-! ### The one body of the four branches, and its tables -/

theorem computes_branch {i : Instr} (branch : isBranch i) : Computes i fun s => .ok (s.mem, 0#64) := by
  cases i with
  | beq | bne | blt | bge =>
    refine computes_branchIf (fun _ => rfl) rfl (fun _ => ?_) (fun _ => ?_)
    · simp only [classOf, condEq_iff, condNe_iff, condLt_iff, condGe_iff]
    · simp only [nextPcOf, condEq_iff, condNe_iff, condLt_iff, condGe_iff]
  | _ => exact branch.elim

/-- A branch completes from every state, with memory as it was. -/
theorem exec_branch_eq_complete {i : Instr} (branch : isBranch i) (s : State) :
    exec i s = .next (s.complete i s.mem 0#64) :=
  (computes_branch branch).exec_eq s

theorem destination_of_isBranch {i : Instr} (branch : isBranch i) : destination i = none := by
  cases i with
  | beq | bne | blt | bge => rfl
  | _ => exact branch.elim

theorem classOf_of_isBranch {i : Instr} (branch : isBranch i) (s : State) :
    classOf s i = .brTaken ∨ classOf s i = .brNotTaken := by
  cases i with
  | beq | bne | blt | bge => exact ite_eq_or_eq ..
  | _ => exact branch.elim

/-- The rule of a branch whose rows in the tables of R25 and R33 both turn on `cond`. -/
theorem branchRule_of_tables {i : Instr} {s : State} {imm : Int} {cond : Prop} [Decidable cond] (branch : isBranch i)
    (cls : classOf s i = if cond then .brTaken else .brNotTaken)
    (pc : nextPcOf s i = s.pc.toNat + if cond then imm else 4) : BranchRule i s imm cond := by
  have counted : CountedAs s (s.complete i s.mem 0#64) (classOf s i) := complete_countedAs s i s.mem 0#64
  have moves : PcMoves s (s.complete i s.mem 0#64) (if cond then imm else 4) := complete_pcMoves s.mem 0#64 pc
  rw [cls] at counted
  refine ⟨_, exec_branch_eq_complete branch s, fun taken => ?_, fun not_taken => ?_,
    complete_regsKept (destination_of_isBranch branch) s s.mem 0#64, complete_memKept s i 0#64,
    complete_fixedKept s i s.mem 0#64⟩
  · rw [if_pos taken] at counted moves
    exact ⟨moves, counted⟩
  · rw [if_neg not_taken] at counted moves
    exact ⟨moves, counted⟩

/-! ### The two branch counters (R175) -/

section
variable {s t : State} {c k : CounterName} (enabled : s.instrEn = true) (counted : CountedAs s t c)
include counted

include enabled in
theorem counter_of_countedAs : counter t.ctr c = counter s.ctr c + 1#64 := by
  rw [counted c, if_pos ⟨enabled, .inr rfl⟩]

theorem counter_of_countedAs_other (not_total : k ≠ .total) (other : k ≠ c) : counter t.ctr k = counter s.ctr k := by
  rw [counted k, if_neg fun ⟨_, total_or_same⟩ => total_or_same.elim not_total other, BitVec.add_zero]

end

/-- One branch raises exactly the counter of its class, and leaves the other as it was. -/
theorem branch_counts_one {i : Instr} {s t : State} (branch : isBranch i) (enabled : s.instrEn = true)
    (executed : exec i s = .next t) :
    (classOf s i = .brTaken ∧ t.ctr.brTaken = s.ctr.brTaken + 1#64 ∧ t.ctr.brNotTaken = s.ctr.brNotTaken) ∨
    (classOf s i = .brNotTaken ∧ t.ctr.brTaken = s.ctr.brTaken ∧ t.ctr.brNotTaken = s.ctr.brNotTaken + 1#64) := by
  obtain ⟨m, v, rfl, -, -⟩ := exec_next executed
  have counted := complete_countedAs s i m v
  obtain taken | not_taken := classOf_of_isBranch branch s
  · rw [taken] at counted
    exact .inl ⟨taken, counter_of_countedAs enabled counted,
      counter_of_countedAs_other (k := .brNotTaken) counted (by decide) (by decide)⟩
  · rw [not_taken] at counted
    exact .inr ⟨not_taken, counter_of_countedAs_other (k := .brTaken) counted (by decide) (by decide),
      counter_of_countedAs enabled counted⟩

theorem branch_raises_sum {i : Instr} {s t : State} (branch : isBranch i) (enabled : s.instrEn = true)
    (executed : exec i s = .next t) :
    t.ctr.brTaken + t.ctr.brNotTaken = s.ctr.brTaken + s.ctr.brNotTaken + 1#64 := by
  obtain ⟨-, taken, not_taken⟩ | ⟨-, taken, not_taken⟩ := branch_counts_one branch enabled executed
  · rw [taken, not_taken, add_right_comm]
  · rw [taken, not_taken, add_assoc]

theorem execAll_cons_of_next {i : Instr} {s t : State} (executed : exec i s = .next t) (rest : List Instr) :
    execAll (i :: rest) s = execAll rest t := by
  rw [execAll, executed]

/-- A list of branches completes, since each does and leaves INSTR_EN on for the rest. -/
theorem execAll_branches {is : List Instr} {s : State} (branches : ∀ i ∈ is, isBranch i) (enabled : s.instrEn = true) :
    ∃ t, execAll is s = some t ∧
      t.ctr.brTaken + t.ctr.brNotTaken = s.ctr.brTaken + s.ctr.brNotTaken + BitVec.ofNat 64 is.length := by
  induction is generalizing s with
  | nil => exact ⟨s, rfl, (BitVec.add_zero _).symm⟩
  | cons i rest ih =>
    obtain ⟨branch, rest_branches⟩ := List.forall_mem_cons.1 branches
    have executed := exec_branch_eq_complete branch s
    have still_enabled := (complete_instrEn s i s.mem 0#64).trans enabled
    obtain ⟨t, completes, sum⟩ := ih rest_branches still_enabled
    refine ⟨t, (execAll_cons_of_next executed rest).trans completes, ?_⟩
    rw [sum, branch_raises_sum branch enabled executed, List.length_cons, BitVec.ofNat_add]
    ring

end Sys2Proof.Machine

namespace Sys2Proof.Proofs

open Sys2Proof.Machine Sys2Proof.Claims

/-- Settles O48: one branch raises one of the two counters, and so a list of them their sum by its length, by induction
on the list. -/
theorem branchCountersAreExclusive : Obligations.BranchCountersAreExclusive := by
  unfold Obligations.BranchCountersAreExclusive
  exact ⟨fun is s branches enabled => execAll_branches branches enabled,
    fun i s t branch enabled executed => branch_counts_one branch enabled executed⟩

/-- Settles O31: BEQ's rows of the tables turn on equality. -/
theorem beqBranchesOnEqual : Obligations.BeqBranchesOnEqual := by
  unfold Obligations.BeqBranchesOnEqual
  exact fun rs1 rs2 imm s => branchRule_of_tables trivial rfl rfl

/-- Settles O32: BNE's rows of the tables turn on inequality. -/
theorem bneBranchesOnUnequal : Obligations.BneBranchesOnUnequal := by
  unfold Obligations.BneBranchesOnUnequal
  exact fun rs1 rs2 imm s => branchRule_of_tables trivial rfl rfl

/-- Settles O33: BLT's rows of the tables turn on the signed order. -/
theorem bltBranchesOnSignedLess : Obligations.BltBranchesOnSignedLess := by
  unfold Obligations.BltBranchesOnSignedLess
  exact fun rs1 rs2 imm s => branchRule_of_tables trivial rfl rfl

/-- Settles O34: BGE's rows of the tables turn on the signed order, and its condition fails exactly when BLT's holds. -/
theorem bgeBranchesOnSignedGreaterOrEqual : Obligations.BgeBranchesOnSignedGreaterOrEqual := by
  unfold Obligations.BgeBranchesOnSignedGreaterOrEqual
  refine fun rs1 rs2 imm s => ⟨branchRule_of_tables trivial rfl rfl, ?_⟩
  rw [Int.not_le]
  exact bltBranchesOnSignedLess rs1 rs2 imm s

end Sys2Proof.Proofs
end

section
/-! PROOF. The statements of 47_store.md: the state a completed store leaves, the same for the three widths. -/

namespace Sys2Proof.Machine

open Sys2Proof.Claims

/-! ### The effective address and the counters, as a load and a store share them -/

theorem addressRule (s : State) (rs1 : Reg) (imm : Int) : AddressRule s rs1 imm := by
  rw [AddressRule, State.effectiveAddress, add_ofInt_eq_ofInt, BitVec.toNat_ofInt,
    Int.toNat_of_nonneg (Int.emod_nonneg _ (by decide))]
  rfl

section
variable {i : Instr} {rd : Option Reg} {c : CounterName} (seq : Sequential i rd c) (s : State) (m : Memory) (v : Word)
include seq

theorem Sequential.countedAs : CountedAs s (s.complete i m v) c := seq.cls s ▸ complete_countedAs s i m v

theorem Sequential.pcMoves : PcMoves s (s.complete i m v) 4 := complete_pcMoves m v (seq.pc s)

end

/-! ### The memory a store leaves -/

/-- Data memory after the low bytes of `v` are stored at `ea`, least significant first (20_memory.md R53). -/
def State.storedMem (s : State) (ea : Word) (w : Width) (v : Word) : Memory :=
  Memory.writeBytes s.platform s.mem ea (leBytes w.bytes v.toNat)

theorem readByte_of_storedMem {s t : State} {ea : Word} {w : Width} {v : Word} {a : Nat}
    (mem : t.mem = s.storedMem ea w v) (platform : t.platform = s.platform)
    (outside : ∀ k < w.bytes, a ≠ addrAt ea k) : t.readByte a = s.readByte a := by
  rw [State.readByte, mem, platform, State.storedMem, Memory.readByte_writeBytes_other _ fun k hk => ?_, State.readByte]
  rw [length_leBytes] at hk
  exact addrAt_eq_toNat ea k ▸ outside k hk

/-- A store that meets neither an undefined byte nor text changes memory alone. -/
theorem store_eq_ok {s : State} {ea : Word} {w : Width} (v : Word) (defined : ¬SomeUndefined s ea w.bytes)
    (apart : ¬SomeText s ea w.bytes) : s.store ea w v = .ok { s with mem := s.storedMem ea w v } := by
  have no_hit : hitsText s.imem ea w.bytes = false := Bool.eq_false_iff.2 fun hit => apart (hitsText_iff.1 hit)
  exact store_ok.2 ⟨fun missing => defined (readBytes_eq_none_iff.1 missing), no_hit, rfl⟩

theorem storeTo_eq_complete {i : Instr} {w : Width} {rs1 rs2 : Reg} {imm : Int} {s : State}
    (seq : Sequential i none .store) (defined : ¬SomeUndefined s (s.effectiveAddress rs1 imm) w.bytes)
    (apart : ¬SomeText s (s.effectiveAddress rs1 imm) w.bytes) :
    storeTo w rs1 rs2 imm s =
      .next (s.complete i (s.storedMem (s.effectiveAddress rs1 imm) w (s.readReg rs2)) 0#64) :=
  storeTo_next.2 ⟨_, store_eq_ok _ defined apart, seq.complete_eq s _ 0#64⟩

/-- The rule of the three stores, from their one body. -/
theorem storeRule {mk : Reg → Reg → Int → Instr} (w : Width)
    (runs : ∀ rs1 rs2 imm s, exec (mk rs1 rs2 imm) s = storeTo w rs1 rs2 imm s)
    (seq : ∀ rs1 rs2 imm, Sequential (mk rs1 rs2 imm) none .store) : StoreRule mk w.bytes := by
  refine fun rs1 rs2 imm s => ⟨addressRule s rs1 imm, fun defined apart => ?_⟩
  have tables := seq rs1 rs2 imm
  have completed := storeTo_eq_complete (rs2 := rs2) tables defined apart
  exact ⟨_, (runs rs1 rs2 imm s).trans completed, storeTo_holdsBytes completed,
    fun a outside => readByte_of_storedMem (complete_mem ..) (complete_platform ..) outside,
    complete_regsKept tables.dest s _ 0#64, tables.pcMoves s _ 0#64, tables.countedAs s _ 0#64,
    complete_fixedKept s _ _ 0#64⟩

end Sys2Proof.Machine

namespace Sys2Proof.Proofs

open Sys2Proof.Machine Sys2Proof.Claims

/-- Settles O35: SB is the store's body at one byte. -/
theorem sbStoresLowByte : Obligations.SbStoresLowByte := by
  unfold Obligations.SbStoresLowByte
  exact storeRule .byte (fun _ _ _ _ => rfl) fun _ _ _ => ⟨rfl, fun _ => rfl, fun _ => rfl⟩

/-- Settles O36: SW is the store's body at four bytes. -/
theorem swStoresLowFourBytes : Obligations.SwStoresLowFourBytes := by
  unfold Obligations.SwStoresLowFourBytes
  exact storeRule .word (fun _ _ _ _ => rfl) fun _ _ _ => ⟨rfl, fun _ => rfl, fun _ => rfl⟩

/-- Settles O37: SD is the store's body at eight bytes. -/
theorem sdStoresEightBytes : Obligations.SdStoresEightBytes := by
  unfold Obligations.SdStoresEightBytes
  exact storeRule .double (fun _ _ _ _ => rfl) fun _ _ _ => ⟨rfl, fun _ => rfl, fun _ => rfl⟩

end Sys2Proof.Proofs
end

section
/-! PROOF. The statements of 48_load.md: the little-endian value of the bytes as a sum, the state a completed load
leaves, and a load of what a store of the same width left. -/

namespace Sys2Proof.Machine

open Sys2Proof.Claims

/-- The statements' reading of bytes as a number (20_memory.md R52). -/
theorem leValue_map_range (b : Nat → Byte) (n : Nat) :
    leValue ((List.range n).map b) = Finset.sum (Finset.range n) fun k => (b k).toNat * 2 ^ (8 * k) := by
  induction n generalizing b with
  | zero => rfl
  | succ n ih =>
    have later : 256 * Finset.sum (Finset.range n) (fun k => (b (k + 1)).toNat * 2 ^ (8 * k)) =
        Finset.sum (Finset.range n) fun k => (b (k + 1)).toNat * 2 ^ (8 * (k + 1)) := by
      rw [Finset.mul_sum]
      exact Finset.sum_congr rfl fun k _ => by ring
    rw [List.range_succ_eq_map, List.map_cons, List.map_map, leValue, ih, Finset.sum_range_succ', ← later, Nat.add_comm]
    simp

/-- A value of fewer than eight bytes is zero-extended: its upper bytes are 0 (D20). -/
theorem toNat_ofNat_leValue_lt (bytes : List Byte) :
    (BitVec.ofNat 64 (leValue bytes)).toNat < 2 ^ (8 * bytes.length) := by
  rw [BitVec.toNat_ofNat, Nat.pow_mul]
  exact (Nat.mod_le _ _).trans_lt (leValue_lt bytes)

theorem loadFrom_eq_complete {i : Instr} {w : Width} {rd rs1 : Reg} {imm : Int} {s : State} {b : Nat → Byte}
    (seq : Sequential i (some rd) .load) (holds : HoldsBytes s (s.effectiveAddress rs1 imm) w.bytes b) :
    loadFrom w rd rs1 imm s =
      .next (s.complete i s.mem (BitVec.ofNat 64 (leValue ((List.range w.bytes).map b)))) :=
  loadFrom_next.2 ⟨_, load_of_holdsBytes holds, seq.complete_eq s s.mem _⟩

/-- Register 0 stays 0, so the bound on the value holds of whichever register the load names. -/
theorem complete_destination_toNat_lt {i : Instr} {rd : Reg} {s : State} {m : Memory} {v : Word} {bound : Nat}
    (dest : destination i = some rd) (small : v.toNat < bound) : ((s.complete i m v).readReg rd).toNat < bound := by
  rw [complete_readReg_destination s m v dest]
  split
  · exact Nat.zero_lt_of_lt small
  · exact small

/-- The rule of the three loads, from their one body. -/
theorem loadRule {mk : Reg → Reg → Int → Instr} (w : Width)
    (runs : ∀ rd rs1 imm s, exec (mk rd rs1 imm) s = loadFrom w rd rs1 imm s)
    (seq : ∀ rd rs1 imm, Sequential (mk rd rs1 imm) (some rd) .load) : LoadRule mk w.bytes := by
  refine fun rd rs1 imm s => ⟨addressRule s rs1 imm, fun b holds => ?_⟩
  have tables := seq rd rs1 imm
  have completed := (runs rd rs1 imm s).trans (loadFrom_eq_complete tables holds)
  have small := toNat_ofNat_leValue_lt ((List.range w.bytes).map b)
  rw [List.length_map, List.length_range] at small
  rw [← leValue_map_range]
  exact ⟨_, completed, complete_regTakes s.mem _ tables.dest, complete_destination_toNat_lt tables.dest small,
    tables.pcMoves s s.mem _, tables.countedAs s s.mem _, complete_memKept s _ _, complete_fixedKept s _ s.mem _⟩

end Sys2Proof.Machine

namespace Sys2Proof.Proofs

open Sys2Proof.Machine Sys2Proof.Claims

/-- Settles O38: LB is the load's body at one byte. -/
theorem lbLoadsZeroExtendedByte : Obligations.LbLoadsZeroExtendedByte := by
  unfold Obligations.LbLoadsZeroExtendedByte
  exact loadRule .byte (fun _ _ _ _ => rfl) fun _ _ _ => ⟨rfl, fun _ => rfl, fun _ => rfl⟩

/-- Settles O39: LW is the load's body at four bytes. -/
theorem lwLoadsZeroExtendedWord : Obligations.LwLoadsZeroExtendedWord := by
  unfold Obligations.LwLoadsZeroExtendedWord
  exact loadRule .word (fun _ _ _ _ => rfl) fun _ _ _ => ⟨rfl, fun _ => rfl, fun _ => rfl⟩

/-- Settles O40: LD is the load's body at eight bytes. -/
theorem ldLoadsEightBytes : Obligations.LdLoadsEightBytes := by
  unfold Obligations.LdLoadsEightBytes
  exact loadRule .double (fun _ _ _ _ => rfl) fun _ _ _ => ⟨rfl, fun _ => rfl, fun _ => rfl⟩

/-- Settles O44: a load of the stored width is a load from inside the store at offset 0. -/
theorem storedValueLoadsBack : Obligations.StoredValueLoadsBack := by
  unfold Obligations.StoredValueLoadsBack
  exact ⟨readsBack .byte .byte (fun _ _ _ _ => rfl) fun _ _ _ _ => rfl,
    readsBack .word .word (fun _ _ _ _ => rfl) fun _ _ _ _ => rfl,
    readsBack .double .double (fun _ _ _ _ => rfl) fun _ _ _ _ => rfl⟩

end Sys2Proof.Proofs
end

section
/-! PROOF. The statements of 60_exceptions.md: each handler rejects what it does not list, with the report of its row
of R202, and the latch is set by such a word alone. -/

namespace Sys2Proof

/-! ### The report of each handler (R202) -/

theorem opcodeOf_eq_extractLsb' (iw : InstrWord) : opcodeOf iw = iw.extractLsb' 0 7 := field_eq_extractLsb' ..

theorem funct3Of_eq_extractLsb' (iw : InstrWord) : funct3Of iw = iw.extractLsb' 12 3 := field_eq_extractLsb' ..

theorem funct7Of_eq_extractLsb' (iw : InstrWord) : funct7Of iw = iw.extractLsb' 25 7 := field_eq_extractLsb' ..

section
variable {iw : InstrWord}

theorem decodeWord_of_unlisted
    (unlisted : opcodeOf iw ∉ [opOp, opJalr, opOpImm, opOp32, opLoad, opBranch, opStore, opJal]) :
    decodeWord iw = .error ⟨.opcode, .opcode (opcodeOf iw)⟩ := by
  unfold decodeWord
  split_ifs with op op op op op op op op
  case neg => rfl
  all_goals exact absurd (by simp [op]) unlisted

theorem decodeR_of_unlisted
    (unlisted : (funct3Of iw, funct7Of iw) ∉
      [(0#3, 0#7), (0#3, 1#7), (0#3, 0x20#7), (1#3, 0#7), (5#3, 0#7), (7#3, 0#7)]) :
    decodeR iw = unsupportedPair .rType iw := by
  unfold decodeR
  split_ifs with tests tests tests tests tests tests
  case neg => rfl
  all_goals exact absurd (by simp [tests]) unlisted

theorem decodeIArith_of_unlisted (not_addi : funct3Of iw ≠ 0#3) (not_srli : (funct3Of iw, funct7Of iw) ≠ (5#3, 0#7)) :
    decodeIArith iw = unsupportedPair .iArith iw := by
  rw [decodeIArith, if_neg not_addi, if_neg fun ⟨f3, f7⟩ => not_srli (Prod.ext f3 f7)]

theorem decodeW_of_unlisted (unlisted : (funct3Of iw, funct7Of iw) ∉ [(1#3, 0#7), (5#3, 0x20#7)]) :
    decodeW iw = unsupportedPair .wType iw := by
  unfold decodeW
  split_ifs with tests tests
  case neg => rfl
  all_goals exact absurd (by simp [tests]) unlisted

theorem decodeLoad_of_unlisted (unlisted : funct3Of iw ∉ [0#3, 2#3, 3#3]) :
    decodeLoad iw = unsupportedFunct3 .load iw := by
  unfold decodeLoad
  split_ifs with test test test
  case neg => rfl
  all_goals exact absurd (by simp [test]) unlisted

theorem decodeBranch_of_unlisted (unlisted : funct3Of iw ∉ [0#3, 1#3, 4#3, 5#3]) :
    decodeBranch iw = unsupportedFunct3 .branch iw := by
  unfold decodeBranch
  split_ifs with test test test test
  case neg => rfl
  all_goals exact absurd (by simp [test]) unlisted

theorem decodeStore_of_unlisted (unlisted : funct3Of iw ∉ [0#3, 2#3, 3#3]) :
    decodeStore iw = unsupportedFunct3 .store iw := by
  unfold decodeStore
  split_ifs with test test test
  case neg => rfl
  all_goals exact absurd (by simp [test]) unlisted

end

end Sys2Proof

namespace Sys2Proof.Machine

open Sys2Proof.Claims

/-! ### Who sets the latch (R200, R201) -/

/-- No instruction writes the latch. -/
theorem exec_next_fatal {i : Instr} {s t : State} (executed : exec i s = .next t) : t.fatal = s.fatal := by
  obtain ⟨m, v, rfl, -, -⟩ := exec_next executed
  exact complete_fatal s i m v

/-- A fetch gives one word, and a word has one decoding. -/
theorem not_unsupported_of_decoded {s : State} {iw iw' : InstrWord} {i : Instr} {u : Unsupported}
    (fetched : Fetches s iw) (decoded : decodeWord iw = .ok i) (fetched' : Fetches s iw') :
    decodeWord iw' ≠ .error u := by
  obtain rfl : iw = iw' := Option.some.inj (fetched.symm.trans fetched')
  rw [decoded]
  exact nofun

end Sys2Proof.Machine

namespace Sys2Proof.Proofs

open Sys2Proof.Machine Sys2Proof.Claims

/-- Settles O11: a word goes to its opcode's handler, which answers its own category and fields for what it does not
list. -/
theorem unsupportedWordsReportTheirCause : Obligations.UnsupportedWordsReportTheirCause := by
  unfold Obligations.UnsupportedWordsReportTheirCause
  simp only [← opcodeOf_eq_extractLsb', ← funct3Of_eq_extractLsb', ← funct7Of_eq_extractLsb']
  refine ⟨fun iw => ⟨decodeWord_of_unlisted, fun op unlisted => ?_, fun op not_addi not_srli => ?_,
    fun op unlisted => ?_, fun op unlisted => ?_, fun op unlisted => ?_, fun op unlisted => ?_, ?_⟩, rfl⟩
  · exact (decodeWord_of_opOp op).trans (decodeR_of_unlisted unlisted)
  · exact (decodeWord_of_opOpImm op).trans (decodeIArith_of_unlisted not_addi not_srli)
  · exact (decodeWord_of_opOp32 op).trans (decodeW_of_unlisted unlisted)
  · exact (decodeWord_of_opLoad op).trans (decodeLoad_of_unlisted unlisted)
  · exact (decodeWord_of_opBranch op).trans (decodeBranch_of_unlisted unlisted)
  · exact (decodeWord_of_opStore op).trans (decodeStore_of_unlisted unlisted)
  · rintro (jal | jalr)
    · exact ⟨_, decodeWord_of_opJal jal⟩
    · exact ⟨_, decodeWord_of_opJalr jalr⟩

/-- Settles O17: a step starts with the latch empty, an instruction leaves it so, and an unsupported word sets it. -/
theorem onlyUnsupportedWordsSetTheLatch : Obligations.OnlyUnsupportedWordsSetTheLatch := by
  unfold Obligations.OnlyUnsupportedWordsSetTheLatch
  intro s t stepped
  obtain ⟨unlatched, -, iw, fetched, ⟨i, decoded, executed⟩ | ⟨u, unsupported, rfl⟩⟩ := step_next stepped
  · refine iff_of_false (fun latched => latched ((exec_next_fatal executed).trans unlatched)) ?_
    rintro ⟨iw', u, fetched', unsupported⟩
    exact not_unsupported_of_decoded fetched decoded fetched' unsupported
  · exact iff_of_true (by simp) ⟨iw, u, fetched, unsupported⟩

/-- Settles O13: the step is the latch's own update, which keeps every other field. -/
theorem unsupportedWordSetsTheLatchOnly : Obligations.UnsupportedWordSetsTheLatchOnly := by
  unfold Obligations.UnsupportedWordSetsTheLatchOnly
  intro s iw u running fetched unsupported
  exact ⟨s.raiseFatal u iw, step_of_unsupported running fetched unsupported, raiseFatal_fatal s u iw,
    readReg_raiseFatal s u iw, rfl, readByte_raiseFatal s u iw, rfl, rfl, rfl, rfl⟩

end Sys2Proof.Proofs
end
